-- ==== Sys2Proof/Word.lean ====
section
/-! DEFINITION. The plain value types of the core: bits (spec/00_scope.md R9), 3-bit stage codes
(spec/30_encoding.md R91), index and rank entries (spec/20_memory.md R61). -/

namespace Sys2Proof

/-- A bit: an element of GF(2), two-valued, so a value outside {0,1} cannot be written (R9, D8). -/
abbrev Bit := Bool

/-- A stage code, three bits, bit 2 the most significant (R91). -/
abbrev Code := BitVec 3

/-- An entry of CILPAT or RMPAT: an unsigned index (R61); unbounded here (U14, entry 9). -/
abbrev Index := Nat

/-- An entry of IBPAT: an unsigned rank (R61); unbounded here (U14, entry 9). -/
abbrev Rank := Nat

end Sys2Proof
end

