-- ==== Sys2Proof/Config.lean ====
section
/-! DEFINITION. What a run or an instance fixes: the scalar configuration (spec/00_scope.md R7), the widths and
maxima an instance chooses (R8), and the two readings of the frozen-bit mapper's order
(spec/93_implementation_defined.md U3). This hardware needs no free value. -/

namespace Sys2Proof

/-- The scalar configuration, five natural numbers (R7, R22): block, parity, generator-row, rate-matched-output and
transform lengths. -/
structure Cfg where
  /-- number of information bits -/
  a : Nat
  /-- number of parity bits -/
  p : Nat
  /-- number of rows of CrcGenMatrix -/
  k : Nat
  /-- length of the rate-matched output -/
  e : Nat
  /-- length of the transform -/
  n : Nat
deriving DecidableEq, Repr

/-- The OPEN parameters of one physical instance (R8). The machine itself uses unbounded naturals, the limit case
of every instance (U14, entry 9); this record only says which configurations an instance can hold. -/
structure InstanceParams where
  idxw : Nat
  rankw : Nat
  cntw : Nat
  lenw : Nat
  maxA : Nat
  maxP : Nat
  maxE : Nat
  maxN : Nat
deriving DecidableEq, Repr

/-- The constraints R8 puts on an instance that is to run the configuration `c`. -/
abbrev InstanceParams.Admits (q : InstanceParams) (c : Cfg) : Prop :=
  max c.n (c.a + c.p) < 2 ^ q.idxw ∧ 1 ≤ q.rankw ∧ c.e < 2 ^ q.cntw ∧
  c.a < 2 ^ q.lenw ∧ c.p < 2 ^ q.lenw ∧ c.k < 2 ^ q.lenw ∧ c.e < 2 ^ q.lenw ∧ c.n < 2 ^ q.lenw ∧
  c.a + c.p < 2 ^ q.lenw ∧
  c.a ≤ q.maxA ∧ c.p ≤ q.maxP ∧ c.e ≤ q.maxE ∧ c.n ≤ q.maxN

/-- The implementation-defined item U3: in which order the information positions are filled. The spec fixes
`byPosition`; `byRank` is the only other reading the source contemplates (R174, D29, entry 12). -/
inductive FrozenOrder where
  | byPosition
  | byRank
deriving DecidableEq, Repr

end Sys2Proof
end

