-- ==== Sys2Proof/Syntax.lean ====
section
/-! DEFINITION. The seven stage operations, one constructor per row of spec/opcode_table.json (spec/00_scope.md R3,
spec/30_encoding.md R92). No operand is encoded (R94), so no constructor has an argument. -/

namespace Sys2Proof

/-- A stage operation. -/
inductive Instr where
  /-- `compute_crc`, alias CRC, stage 1 CrcEngine -/
  | computeCrc
  /-- `scramble`, alias SCR, stage 2 Scrambler -/
  | scramble
  /-- `interleave`, alias ILV, stage 3 Interleaver -/
  | interleave
  /-- `map_frozen`, alias FRZ, stage 4 FrozenBitMapper -/
  | mapFrozen
  /-- `transform`, alias POL, stage 5 PolarTransform -/
  | transform
  /-- `rate_match`, alias RM, stage 6 RateMatcher -/
  | rateMatch
  /-- `compare`, alias CMP, stage 7 Validator -/
  | compare
deriving DecidableEq, Repr

end Sys2Proof
end

