-- ==== Sys2Proof/WellFormed.lean ====
section
/-! DEFINITION. Well-formedness. An instruction of this hardware has no field, so every one is well formed
(spec/30_encoding.md R91, R94, R95). What can be ill formed is what the host hands to a run: the nine arguments of
the run function (spec/40_pipeline_sequencer.md R117), held here as `RunInput`, with the loader's checks
(spec/70_reset_and_hazards.md R272, spec/10_state.md R23). -/

namespace Sys2Proof

/-- Every stage operation is well formed: there is no register, immediate, mode or function field to check (R91). -/
def Instr.wellFormed : Instr → Bool
  | .computeCrc => true
  | .scramble => true
  | .interleave => true
  | .mapFrozen => true
  | .transform => true
  | .rateMatch => true
  | .compare => true

/-- A binary matrix, its dimensions and its rows in order: `rowList[i][j]` is `M[i][j]` (R11). -/
structure Matrix where
  rows : Nat
  cols : Nat
  rowList : List (List Bit)
deriving DecidableEq, Repr

/-- The rows listed are as many and as long as the dimensions say. -/
def Matrix.wellShaped (m : Matrix) : Bool :=
  m.rowList.length == m.rows && m.rowList.all (fun row => row.length == m.cols)

/-- The nine arguments of a run (R117): the configuration and eight operands that carry their own lengths. -/
structure RunInput where
  cfg : Cfg
  info : List Bit
  crcgen : Matrix
  rnti : List Bit
  cilpat : List Index
  ibpat : List Rank
  encgen : Matrix
  rmpat : List Index
  ref : List Bit
deriving DecidableEq, Repr

/-- `p` is a permutation of `0..n-1`: of length `n`, every entry in range, no entry twice (R24, R162). -/
def isPermutationOf (p : List Index) (n : Nat) : Bool :=
  p.length == n && p.all (fun v => decide (v < n)) && decide p.Nodup

namespace RunInput

/-- `LEN_INFO = A` (R23). -/
def infoOk (r : RunInput) : Bool := r.info.length == r.cfg.a

/-- `CRCGEN` is `K x P` and `K = A+1` (R23, R272). -/
def crcgenOk (r : RunInput) : Bool :=
  r.crcgen.rows == r.cfg.k && r.crcgen.cols == r.cfg.p && r.cfg.k == r.cfg.a + 1

/-- `0 <= R <= P` (R23). -/
def rntiOk (r : RunInput) : Bool := decide (r.rnti.length ≤ r.cfg.p)

/-- `CILPAT` is a permutation of `0..A+P-1` (R272). -/
def cilpatOk (r : RunInput) : Bool := isPermutationOf r.cilpat (r.cfg.a + r.cfg.p)

/-- `IBPAT` has `N` entries, exactly `A+P` of them greater than zero (R272). -/
def ibpatOk (r : RunInput) : Bool :=
  r.ibpat.length == r.cfg.n && r.ibpat.countP (fun v => decide (0 < v)) == r.cfg.a + r.cfg.p

/-- `ENCGEN` is `N x N` (R23). -/
def encgenOk (r : RunInput) : Bool := r.encgen.rows == r.cfg.n && r.encgen.cols == r.cfg.n

/-- `RMPAT` has `E` entries, each below `N` (R272). -/
def rmpatOk (r : RunInput) : Bool :=
  r.rmpat.length == r.cfg.e && r.rmpat.all (fun v => decide (v < r.cfg.n))

/-- `LEN_REF = E` (R23). -/
def refOk (r : RunInput) : Bool := r.ref.length == r.cfg.e

/-- All the loader must have validated for a run to complete (R23, R272). -/
def wellFormed (r : RunInput) : Bool :=
  r.infoOk && r.crcgenOk && r.rntiOk && r.cilpatOk && r.ibpatOk && r.encgenOk && r.rmpatOk && r.refOk

end RunInput

end Sys2Proof
end

