-- ==== Sys2Proof/Decode.lean ====
section
/-! DEFINITION. The decoder and the encoder of the 3-bit stage codes (spec/30_encoding.md R91, R92, R93, R99). -/

namespace Sys2Proof

/-- The stage number of an operation, its place in the source's list (R3, R92). -/
def Instr.number : Instr → Fin 8
  | .computeCrc => 1
  | .scramble => 2
  | .interleave => 3
  | .mapFrozen => 4
  | .transform => 5
  | .rateMatch => 6
  | .compare => 7

/-- What a stage code means: a stage operation, or halt (R99). -/
inductive Decoded where
  | stage (i : Instr)
  | halt
deriving DecidableEq, Repr

/-- The decoder, total and trivial (R99): codes 1 to 7 are the stages in the order of R92, code 0 is halt. -/
def decode (c : Code) : Decoded :=
  match c.toFin with
  | 0 => .halt
  | 1 => .stage .computeCrc
  | 2 => .stage .scramble
  | 3 => .stage .interleave
  | 4 => .stage .mapFrozen
  | 5 => .stage .transform
  | 6 => .stage .rateMatch
  | 7 => .stage .compare

/-- Why a word is not a stage operation. -/
inductive Reject where
  /-- code 000: halt, no stage operation (R93) -/
  | halt
  /-- some bit above the three of the code is set: no code is that wide (R91, R95; entry 10) -/
  | notACode (w : Nat)
deriving DecidableEq, Repr

/-- The decoder on a word of any width: its three low bits are the code and every bit above them is 0 (entry 10). -/
def decodeWord (w : Nat) : Except Reject Instr :=
  if w < 8 then
    match decode (BitVec.ofNat 3 w) with
    | .stage i => .ok i
    | .halt => .error .halt
  else .error (.notACode w)

/-- The decoder on bytes, the first byte holding the code and every later byte 0 (entry 10). -/
def decodeBytes (bs : List (BitVec 8)) : Except Reject Instr :=
  decodeWord (bs.foldr (fun b acc => b.toNat + 256 * acc) 0)

/-- The instruction the decoder reads from an opcode-table word of `nbits` bits with value `w`. -/
def decodeTableWord (nbits w : Nat) : Option Instr :=
  if w < 2 ^ nbits then
    match decodeWord w with
    | .ok i => some i
    | .error _ => none
  else none

/-- The encoder: the 3-bit code of a stage operation, from the table of R92. -/
def encode : Instr → Code
  | .computeCrc => 0b001#3
  | .scramble => 0b010#3
  | .interleave => 0b011#3
  | .mapFrozen => 0b100#3
  | .transform => 0b101#3
  | .rateMatch => 0b110#3
  | .compare => 0b111#3

end Sys2Proof
end

