-- ==== Sys2Proof/Machine/State.lean ====
section
/-! DEFINITION. The state of one instance of the core (spec/10_state.md R21 to R36) as plain data, its reset value
(R35, spec/70_reset_and_hazards.md R270), the reasons a step can stop, and the actions of the host
(spec/10_state.md R20, R32). -/

namespace Sys2Proof.Machine

/-- The bit-vector operand spaces (R24, R60). -/
inductive BitSpace where
  | info
  | rnti
  | ref
deriving DecidableEq, Repr

/-- The pattern operand spaces, holding indices or ranks (R24, R61). -/
inductive PatSpace where
  | cilpat
  | ibpat
  | rmpat
deriving DecidableEq, Repr

/-- The matrix operand spaces, addressed by row and column (R24, R63). -/
inductive MatSpace where
  | crcgen
  | encgen
deriving DecidableEq, Repr

/-- Any of the eight operand spaces (R60). -/
inductive Space where
  | bits (sp : BitSpace)
  | entries (sp : PatSpace)
  | matrix (sp : MatSpace)
deriving DecidableEq, Repr

/-- The six bit-vector result registers (R25); the seventh result register, MMC, is a number. -/
inductive BitReg where
  | crc
  | scr
  | ilv
  | frz
  | enc
  | rmo
deriving DecidableEq, Repr

/-- The run state STATE (R29). -/
inductive RunState where
  /-- no run since reset -/
  | idle
  /-- a run is in progress -/
  | busy
  /-- the last run completed all seven stages -/
  | done
  /-- the last run was aborted by an error -/
  | err
deriving DecidableEq, Repr

/-- The two error kinds a stage can raise (spec/60_exceptions.md R230). -/
inductive StageError where
  /-- ShapeError: a length or count disagrees with the configuration (R232) -/
  | shape
  /-- IndexError: a pattern entry used as an index is out of range or, in stage 3, repeated (R233) -/
  | index
deriving DecidableEq, Repr

/-- The values of ERRKIND (R30); the value 3 is never written and is not represented (U9). -/
inductive ErrKind where
  | none
  | shape
  | index
deriving DecidableEq, Repr

/-- The length registers (R23). -/
structure LenRegs where
  info : Nat
  rowsCrcgen : Nat
  colsCrcgen : Nat
  rnti : Nat
  cilpat : Nat
  ibpat : Nat
  rowsEncgen : Nat
  colsEncgen : Nat
  rmpat : Nat
  ref : Nat
deriving DecidableEq, Repr

/-- The elements of a space that hold a value, by index: indices strictly rising, so equal contents are equal data.
An index not listed holds no value (R35; entries 3 and 20). -/
abbrev Cells (κ α : Type) := List (κ × α)

/-- The eight operand spaces (R24, R60). A matrix element is keyed by (row, column) (R63, entry 19). -/
structure Memory where
  info : Cells Nat Bit
  crcgen : Cells (Nat × Nat) Bit
  rnti : Cells Nat Bit
  cilpat : Cells Nat Index
  ibpat : Cells Nat Rank
  encgen : Cells (Nat × Nat) Bit
  rmpat : Cells Nat Index
  ref : Cells Nat Bit
deriving DecidableEq, Repr

/-- The seven result registers (R25). Whether a register holds a value is its flag in VALID (R27). -/
structure Results where
  crc : List Bit
  scr : List Bit
  ilv : List Bit
  frz : List Bit
  enc : List Bit
  rmo : List Bit
  mmc : Nat
deriving DecidableEq, Repr

/-- What the host can do to the core in one action (R20(b), R32). Reads change nothing (R65) and are functions of
Machine/HostPort.lean, not actions (entry 23). -/
inductive HostAction where
  /-- write `v` to register number `n` of the CSR space (R34); the start command is register 15, bit 0 (R98) -/
  | writeCsr (n v : Nat)
  /-- write one element of a bit-vector operand space -/
  | writeBit (sp : BitSpace) (i : Nat) (b : Bit)
  /-- write one element of a pattern operand space -/
  | writeEntry (sp : PatSpace) (i v : Nat)
  /-- write one element, row `i` column `j`, of a matrix operand space -/
  | writeMatrix (sp : MatSpace) (i j : Nat) (b : Bit)
  /-- try to write an element of a result register, which is read-only to the host (R32) -/
  | writeResult (r : BitReg) (i : Nat) (b : Bit)
  /-- leave the core alone for one step, as a host that polls STATE does (R241; entry 6) -/
  | wait
  /-- apply reset from outside (R270) -/
  | reset
deriving DecidableEq, Repr

/-- The state of one instance of the core. -/
structure State where
  /-- CFG_A, CFG_P, CFG_K, CFG_E, CFG_N (R22) -/
  cfg : Cfg
  /-- the ten length registers (R23) -/
  len : LenRegs
  /-- WRITTEN: bit `n` says that register number `n` (0 to 14) has been written since reset; a register whose bit is
  clear holds no value for the host or for a run (R35, R271; entry 1) -/
  written : BitVec 15
  /-- the operand spaces (R24) -/
  mem : Memory
  /-- the result registers (R25) -/
  res : Results
  /-- VALID: bit `k-1` is the flag of stage `k`'s result register (R27) -/
  valid : BitVec 7
  /-- STATE (R29) -/
  state : RunState
  /-- STG, the stage counter (R28) -/
  stg : Fin 8
  /-- ERRKIND (R30) -/
  errKind : ErrKind
  /-- ERRSTG (R30) -/
  errStg : Fin 8
  /-- the model's own field: what the host does next, oldest first (R20(b); entry 6) -/
  host : List HostAction
deriving DecidableEq, Repr

/-- Why the machine stops. Every fault is an access the spec forbids, none happens in a run the host started, and
each is safe: the model stops where an instance would go on with an unspecified value. -/
inductive Fault where
  /-- a stage reads an operand element that holds no value; raised by the operand reads of Operands.lean; safe
  (R35, R271; entry 3) -/
  | elementNotWritten (sp : Space)
  /-- a stage would read an operand element at or beyond the length register of its space; raised by the operand
  reads of Operands.lean; safe (R64; entry 24) -/
  | indexBeyondLength (sp : Space)
  /-- a stage reads a result register whose flag is 0; raised by `readResult` of Operands.lean; safe (R27, R32;
  entry 5) -/
  | resultNotValid (r : BitReg)
  /-- a stage reads a result register that does not have the length the producing stage guarantees; raised by
  `readResult` of Operands.lean; safe (R111, R120; entry 5) -/
  | resultLength (r : BitReg)
  /-- the sequencer, BUSY, fetches the halt code, which it never executes; raised by `sequencerStep`; safe (R93;
  entry 21) -/
  | haltFetched
deriving DecidableEq, Repr

/-- Why a step has no meaning. -/
inductive Refusal where
  /-- an instruction without a meaning yet; raised by no arm of this model; safe -/
  | notModelled (mnemonic : String)
  /-- the host writes a configuration register, a length register or an operand element while BUSY; raised by
  the host writes of HostPort.lean; safe here, and a claim about a run carries the premise that the host does not
  do it (R273, U5; entry 8) -/
  | writeWhileBusy
  /-- the start command while BUSY; raised by `writeCtrl`; safe here, with the same premise (R274, U6; entry 8) -/
  | startWhileBusy
  /-- the start command before every register and operand element a run may read holds a value; raised by
  `writeCtrl`; safe (R112, R35, R271; entry 2) -/
  | startBeforeInitialised
  /-- the sequencer is not BUSY and the host does nothing: there is no step until the start command; raised by
  `sequencerStep`; safe (R113; entry 7) -/
  | waitingForStart
deriving DecidableEq, Repr

/-- The result of one step of this machine. -/
abbrev Outcome := Host.Outcome State Fault Refusal

/-- How a stage ends when it delivers no value: it raises an error of the spec, which the abort step takes, or it
makes an access the spec forbids, which stops the model. -/
inductive Stop where
  | raise (e : StageError)
  | fault (f : Fault)
deriving DecidableEq, Repr

/-- The contents behind flags that are all 0: no register holds a value; the contents are placeholders nothing reads
(R27; DESIGN CHOICE, entry 4). -/
def Results.noValue : Results :=
  { crc := [], scr := [], ilv := [], frz := [], enc := [], rmo := [], mmc := 0 }

/-- Operand spaces in which no element holds a value (R35). -/
def Memory.empty : Memory :=
  { info := [], crcgen := [], rnti := [], cilpat := [], ibpat := [], encgen := [], rmpat := [], ref := [] }

/-- The machine right after reset (R35): idle, no error, no result valid, and no configuration register, length
register or operand element holding a value. The 0 in the configuration and length fields is a placeholder behind
WRITTEN bits that are clear (DESIGN CHOICE, entry 1). -/
def State.reset : State :=
  { cfg := { a := 0, p := 0, k := 0, e := 0, n := 0 }
    len := { info := 0, rowsCrcgen := 0, colsCrcgen := 0, rnti := 0, cilpat := 0, ibpat := 0
             rowsEncgen := 0, colsEncgen := 0, rmpat := 0, ref := 0 }
    written := 0#15
    mem := Memory.empty
    res := Results.noValue
    valid := 0#7
    state := .idle
    stg := 0
    errKind := .none
    errStg := 0
    host := [] }

end Sys2Proof.Machine
end

