-- ==== Sys2Proof/Machine/Gf2.lean ====
section
/-! DEFINITION. GF(2) arithmetic on sequences: the XOR of a sequence of terms (spec/00_scope.md R9), zero sequences
(R10) and the primitive `gf2_vecmat` (R12). -/

namespace Sys2Proof.Machine

/-- `zeros(n)` (R10). -/
def zeros (n : Nat) : List Bit := List.replicate n false

/-- The XOR of the terms of a sequence; over the empty sequence it is 0 (R9). -/
def xorSum (ts : List Bit) : Bit := ts.foldr Bool.xor false

/-- `gf2_vecmat(v, M)` for a matrix of `n` columns given by its rows: output bit `j` is the XOR over `i` of
`v[i] AND M[i][j]` (R12). -/
def gf2Vecmat (n : Nat) (v : List Bit) (rows : List (List Bit)) : List Bit :=
  (List.range n).map fun j => xorSum (List.zipWith (fun b row => b && row.getD j false) v rows)

/-- Element-wise XOR of two sequences (R146, R190). -/
def xorBits (a b : List Bit) : List Bit := List.zipWith Bool.xor a b

/-- Gather by index: element `i` of the result is element `pattern[i]` of `bits` (R163, R202). Its callers have
checked every entry against the length of `bits`. -/
def gather (bits : List Bit) (pattern : List Index) : List Bit := pattern.map fun v => bits.getD v false

end Sys2Proof.Machine
end

