-- ==== Sys2Proof/Machine/Flags.lean ====
section
/-! DEFINITION. The only flags of the core: the valid flags of the result registers (spec/10_state.md R27), and the
flags of the model that say which configuration and length registers hold a value (R35). -/

namespace Sys2Proof.Machine

/-- The bit of VALID that stage `k` owns: bit `k-1` (R27). -/
def flagBit (i : Instr) : BitVec 7 := BitVec.twoPow 7 (i.number.val - 1)

/-- The flag of the result register of stage `i` (R27). -/
def hasFlag (v : BitVec 7) (i : Instr) : Bool := v.getLsbD (i.number.val - 1)

/-- Setting the flag of the result register of stage `i` (R113). -/
def setFlag (v : BitVec 7) (i : Instr) : BitVec 7 := v ||| flagBit i

/-- The flags of the stages before stage `k`, and no other: `2^(k-1) - 1` (R113; V-SEQ-3, V-SEQ-5). -/
def flagsBelow (k : Fin 8) : BitVec 7 := BitVec.ofNat 7 (2 ^ (k.val - 1) - 1)

/-- The stage that writes a result register (R25). -/
def BitReg.writer : BitReg → Instr
  | .crc => .computeCrc
  | .scr => .scramble
  | .ilv => .interleave
  | .frz => .mapFrozen
  | .enc => .transform
  | .rmo => .rateMatch

/-- Whether register number `n` (0 to 14) holds a value (R35). -/
def csrHolds (w : BitVec 15) (n : Nat) : Bool := w.getLsbD n

/-- Register number `n` (0 to 14) now holds a value. -/
def csrMark (w : BitVec 15) (n : Nat) : BitVec 15 := w ||| BitVec.twoPow 15 n

end Sys2Proof.Machine
end

