-- ==== Sys2Proof/Machine/Ops.lean ====
section
/-! DEFINITION. The named operations over operand storage and registers, the start command
(spec/40_pipeline_sequencer.md R112), the end of a stage (R113, R114) and the abort step, which is this hardware's
taking of an exception (spec/60_exceptions.md R238). There is no return from an error (R240): the only way on is
the start command. -/

namespace Sys2Proof.Machine

/-! ### Operand storage -/

/-- The element at index `k`, if it holds a value (R35, R65). -/
def Cells.read {κ α : Type} [DecidableEq κ] (m : Cells κ α) (k : κ) : Option α :=
  match m with
  | [] => none
  | c :: rest => if c.1 = k then some c.2 else Cells.read rest k

/-- Writing `v` at index `k`, keeping the indices strictly rising in the order `lt`. -/
def Cells.write {κ α : Type} [DecidableEq κ] (lt : κ → κ → Bool) (m : Cells κ α) (k : κ) (v : α) : Cells κ α :=
  match m with
  | [] => [(k, v)]
  | c :: rest =>
    if c.1 = k then (k, v) :: rest
    else if lt k c.1 then (k, v) :: c :: rest
    else c :: Cells.write lt rest k v

/-- The canonical form: indices strictly rising in the order `lt`. -/
def Cells.wf {κ α : Type} (lt : κ → κ → Bool) (m : Cells κ α) : Bool :=
  decide (m.Pairwise fun c d => lt c.1 d.1 = true)

/-- The order of vector indices. -/
def indexLt (a b : Nat) : Bool := decide (a < b)

/-- The order of matrix indices (row, column): column-major, the flat order D5 decides (R63, entry 19). -/
def pairLt (a b : Nat × Nat) : Bool := decide (a.2 < b.2) || (decide (a.2 = b.2) && decide (a.1 < b.1))

/-- The cells of a bit-vector space. -/
def Memory.bits (m : Memory) : BitSpace → Cells Nat Bit
  | .info => m.info
  | .rnti => m.rnti
  | .ref => m.ref

/-- The cells of a pattern space. -/
def Memory.entries (m : Memory) : PatSpace → Cells Nat Nat
  | .cilpat => m.cilpat
  | .ibpat => m.ibpat
  | .rmpat => m.rmpat

/-- The cells of a matrix space. -/
def Memory.matrix (m : Memory) : MatSpace → Cells (Nat × Nat) Bit
  | .crcgen => m.crcgen
  | .encgen => m.encgen

/-- Writing one element of a bit-vector space. -/
def Memory.writeBit (m : Memory) (sp : BitSpace) (i : Nat) (b : Bit) : Memory :=
  match sp with
  | .info => { m with info := m.info.write indexLt i b }
  | .rnti => { m with rnti := m.rnti.write indexLt i b }
  | .ref => { m with ref := m.ref.write indexLt i b }

/-- Writing one element of a pattern space. -/
def Memory.writeEntry (m : Memory) (sp : PatSpace) (i v : Nat) : Memory :=
  match sp with
  | .cilpat => { m with cilpat := m.cilpat.write indexLt i v }
  | .ibpat => { m with ibpat := m.ibpat.write indexLt i v }
  | .rmpat => { m with rmpat := m.rmpat.write indexLt i v }

/-- Writing one element of a matrix space. -/
def Memory.writeMatrix (m : Memory) (sp : MatSpace) (i j : Nat) (b : Bit) : Memory :=
  match sp with
  | .crcgen => { m with crcgen := m.crcgen.write pairLt (i, j) b }
  | .encgen => { m with encgen := m.encgen.write pairLt (i, j) b }

/-- Every operand space is in canonical form. -/
def Memory.wf (m : Memory) : Bool :=
  Cells.wf indexLt m.info && Cells.wf pairLt m.crcgen && Cells.wf indexLt m.rnti && Cells.wf indexLt m.cilpat &&
  Cells.wf indexLt m.ibpat && Cells.wf pairLt m.encgen && Cells.wf indexLt m.rmpat && Cells.wf indexLt m.ref

/-- The length register of a bit-vector space (R23, R60). -/
def LenRegs.bits (l : LenRegs) : BitSpace → Nat
  | .info => l.info
  | .rnti => l.rnti
  | .ref => l.ref

/-- The length register of a pattern space (R23, R60). -/
def LenRegs.entries (l : LenRegs) : PatSpace → Nat
  | .cilpat => l.cilpat
  | .ibpat => l.ibpat
  | .rmpat => l.rmpat

/-- The row-count register of a matrix space (R23, R60). -/
def LenRegs.rows (l : LenRegs) : MatSpace → Nat
  | .crcgen => l.rowsCrcgen
  | .encgen => l.rowsEncgen

/-- The column-count register of a matrix space (R23, R60). -/
def LenRegs.cols (l : LenRegs) : MatSpace → Nat
  | .crcgen => l.colsCrcgen
  | .encgen => l.colsEncgen

/-- The number of the length register of a bit-vector space (R34). -/
def BitSpace.lengthCsr : BitSpace → Nat
  | .info => 5
  | .rnti => 8
  | .ref => 14

/-- The number of the length register of a pattern space (R34). -/
def PatSpace.lengthCsr : PatSpace → Nat
  | .cilpat => 9
  | .ibpat => 10
  | .rmpat => 13

/-- The number of the row-count register of a matrix space (R34). -/
def MatSpace.rowsCsr : MatSpace → Nat
  | .crcgen => 6
  | .encgen => 11

/-- The number of the column-count register of a matrix space (R34). -/
def MatSpace.colsCsr : MatSpace → Nat
  | .crcgen => 7
  | .encgen => 12

/-- All values of a list of options, if there is no `none` among them. -/
def allSome {α : Type} : List (Option α) → Option (List α)
  | [] => some []
  | o :: os =>
    match o, allSome os with
    | some v, some vs => some (v :: vs)
    | _, _ => none

/-- The first `n` elements of a vector space, if each holds a value. -/
def Cells.firstN {α : Type} (m : Cells Nat α) (n : Nat) : Option (List α) :=
  allSome ((List.range n).map fun i => m.read i)

/-- The first `r` rows and `c` columns of a matrix space, by rows, if each element holds a value (R63). -/
def Cells.rowsOf (m : Cells (Nat × Nat) Bit) (r c : Nat) : Option (List (List Bit)) :=
  allSome ((List.range r).map fun i => allSome ((List.range c).map fun j => m.read (i, j)))

/-! ### Registers -/

/-- The contents of a bit-vector result register. -/
def Results.bits (r : Results) : BitReg → List Bit
  | .crc => r.crc
  | .scr => r.scr
  | .ilv => r.ilv
  | .frz => r.frz
  | .enc => r.enc
  | .rmo => r.rmo

/-- The contents of register number `n`, 0 to 14 (R34). -/
def csrValue (s : State) (n : Nat) : Nat :=
  match n with
  | 0 => s.cfg.a
  | 1 => s.cfg.p
  | 2 => s.cfg.k
  | 3 => s.cfg.e
  | 4 => s.cfg.n
  | 5 => s.len.info
  | 6 => s.len.rowsCrcgen
  | 7 => s.len.colsCrcgen
  | 8 => s.len.rnti
  | 9 => s.len.cilpat
  | 10 => s.len.ibpat
  | 11 => s.len.rowsEncgen
  | 12 => s.len.colsEncgen
  | 13 => s.len.rmpat
  | 14 => s.len.ref
  | _ => 0

/-- Register number `n`, 0 to 14, takes the value `v` (R34); any other number changes nothing here. -/
def csrAssign (s : State) (n v : Nat) : State :=
  match n with
  | 0 => { s with cfg := { s.cfg with a := v } }
  | 1 => { s with cfg := { s.cfg with p := v } }
  | 2 => { s with cfg := { s.cfg with k := v } }
  | 3 => { s with cfg := { s.cfg with e := v } }
  | 4 => { s with cfg := { s.cfg with n := v } }
  | 5 => { s with len := { s.len with info := v } }
  | 6 => { s with len := { s.len with rowsCrcgen := v } }
  | 7 => { s with len := { s.len with colsCrcgen := v } }
  | 8 => { s with len := { s.len with rnti := v } }
  | 9 => { s with len := { s.len with cilpat := v } }
  | 10 => { s with len := { s.len with ibpat := v } }
  | 11 => { s with len := { s.len with rowsEncgen := v } }
  | 12 => { s with len := { s.len with colsEncgen := v } }
  | 13 => { s with len := { s.len with rmpat := v } }
  | 14 => { s with len := { s.len with ref := v } }
  | _ => s

/-- The numeric code of STATE (R29). -/
def RunState.toCode : RunState → Nat
  | .idle => 0
  | .busy => 1
  | .done => 2
  | .err => 3

/-- The numeric code of ERRKIND (R30, R231). -/
def ErrKind.toCode : ErrKind → Nat
  | .none => 0
  | .shape => 1
  | .index => 2

/-- What ERRKIND records for an error (R231). -/
def StageError.kind : StageError → ErrKind
  | .shape => .shape
  | .index => .index

/-! ### What the host has supplied -/

/-- The nine arguments of a run as the state holds them, if every operand element below its length register holds a
value (R117, R271). -/
def State.runInput (s : State) : Option RunInput :=
  match s.mem.info.firstN s.len.info, s.mem.crcgen.rowsOf s.len.rowsCrcgen s.len.colsCrcgen,
        s.mem.rnti.firstN s.len.rnti, s.mem.cilpat.firstN s.len.cilpat, s.mem.ibpat.firstN s.len.ibpat,
        s.mem.encgen.rowsOf s.len.rowsEncgen s.len.colsEncgen, s.mem.rmpat.firstN s.len.rmpat,
        s.mem.ref.firstN s.len.ref with
  | some info, some crcgen, some rnti, some cilpat, some ibpat, some encgen, some rmpat, some ref =>
    some { cfg := s.cfg, info := info
           crcgen := { rows := s.len.rowsCrcgen, cols := s.len.colsCrcgen, rowList := crcgen }
           rnti := rnti, cilpat := cilpat, ibpat := ibpat
           encgen := { rows := s.len.rowsEncgen, cols := s.len.colsEncgen, rowList := encgen }
           rmpat := rmpat, ref := ref }
  | _, _, _, _, _, _, _, _ => none

/-- The host has written every configuration register, every length register and every operand element below its
length register (R271). -/
def State.initialised (s : State) : Bool := s.written == BitVec.allOnes 15 && s.runInput.isSome

/-! ### Start, end of a stage, abort -/

/-- The effect of the start command, all at once (R112). All seven result registers now hold no value. -/
def startRun (s : State) : State :=
  { s with valid := 0#7, errKind := .none, errStg := 0, stg := 1, state := .busy, res := Results.noValue }

/-- The end of a successful stage `i` (R113, R114): its result register is written, its flag set, and the stage
counter moves on; after stage 7 the run is complete. -/
def finishStage (i : Instr) (res : Results) (s : State) : State :=
  if i.number = 7 then { s with res := res, valid := setFlag s.valid i, stg := 0, state := .done }
  else { s with res := res, valid := setFlag s.valid i, stg := i.number + 1 }

/-- The abort step (R238): the error is recorded, STG stays, nothing else changes. -/
def abort (e : StageError) (i : Instr) (s : State) : State :=
  { s with errKind := e.kind, errStg := i.number, state := .err }

/-- One step's outcome from the outcome of stage `i`: its value is stored and the stage finished, or its error is
taken by the abort step (R113). -/
def concludeStage {α : Type} (i : Instr) (store : α → Results → Results) (r : Except Stop α) (s : State) : Outcome :=
  match r with
  | .ok v => .next (finishStage i (store v s.res) s)
  | .error (.raise e) => .next (abort e i s)
  | .error (.fault f) => .fault f

end Sys2Proof.Machine
end

