-- ==== Sys2Proof/Machine/Operands.lean ====
section
/-! DEFINITION. How a stage sees its operands (spec/40_pipeline_sequencer.md R111): reads of operand spaces
(`MemRead`, spec/00_scope.md R13, spec/20_memory.md R64), reads of result registers (spec/10_state.md R27, R32),
the wiring `ICB` (R26), and the checks that raise an error (spec/60_exceptions.md R234). -/

namespace Sys2Proof.Machine

/-- Raise the error `e` unless the condition holds (R234). -/
def require (c : Bool) (e : StageError) : Except Stop Unit :=
  if c then .ok () else .error (.raise e)

/-- Elements read from `sp`, or the fault of an element that holds no value (R35). -/
def orNotWritten {α : Type} (sp : Space) (o : Option α) : Except Stop α :=
  match o with
  | some v => .ok v
  | none => .error (.fault (.elementNotWritten sp))

/-- Elements 0 to `n-1` of a bit-vector space, all below its length register (R64). -/
def readBits (sp : BitSpace) (n : Nat) (s : State) : Except Stop (List Bit) :=
  if n ≤ s.len.bits sp then orNotWritten (.bits sp) ((s.mem.bits sp).firstN n)
  else .error (.fault (.indexBeyondLength (.bits sp)))

/-- Elements 0 to `n-1` of a pattern space, all below its length register (R64). -/
def readEntries (sp : PatSpace) (n : Nat) (s : State) : Except Stop (List Nat) :=
  if n ≤ s.len.entries sp then orNotWritten (.entries sp) ((s.mem.entries sp).firstN n)
  else .error (.fault (.indexBeyondLength (.entries sp)))

/-- Rows 0 to `r-1`, columns 0 to `c-1` of a matrix space, all below its two length registers (R64). -/
def readMatrix (sp : MatSpace) (r c : Nat) (s : State) : Except Stop (List (List Bit)) :=
  if r ≤ s.len.rows sp ∧ c ≤ s.len.cols sp then orNotWritten (.matrix sp) ((s.mem.matrix sp).rowsOf r c)
  else .error (.fault (.indexBeyondLength (.matrix sp)))

/-- The `n` bits of a result register: only a register whose flag is set is read (R32), and the producing stage
guarantees its length (R111, R120). -/
def readResult (r : BitReg) (n : Nat) (s : State) : Except Stop (List Bit) :=
  if hasFlag s.valid r.writer then
    if (s.res.bits r).length = n then .ok (s.res.bits r) else .error (.fault (.resultLength r))
  else .error (.fault (.resultNotValid r))

/-- `ICB = INFO ++ SCR`, the information bits first (R26). -/
def readIcb (s : State) : Except Stop (List Bit) :=
  match readBits .info s.cfg.a s, readResult .scr s.cfg.p s with
  | .ok info, .ok scr => .ok (info ++ scr)
  | .error e, _ => .error e
  | .ok _, .error e => .error e

/-- Every entry is below the bound: with unsigned entries, the range check of R162 and R201. -/
def inRange (pattern : List Index) (bound : Nat) : Bool := pattern.all fun v => decide (v < bound)

/-- No entry occurs twice: the second check of R162. -/
def noDuplicate (pattern : List Index) : Bool := decide pattern.Nodup

/-- The number of entries greater than zero (R171). -/
def positiveCount (ranks : List Rank) : Nat := ranks.countP fun v => decide (0 < v)

end Sys2Proof.Machine
end

