-- ==== Sys2Proof/Machine/CrcEngine.lean ====
section
/-! DEFINITION. Stage 1, CrcEngine, `compute_crc` (spec/41_crc_engine.md R140 to R147). -/

namespace Sys2Proof.Machine

/-- The contract `compute_crc(info_bits, crc_gen_matrix)` on its values: a constant 1 is put in front of the
information bits and the product with the matrix of `p` columns is taken (R142). -/
def crcOf (p : Nat) (info : List Bit) (rows : List (List Bit)) : List Bit := gf2Vecmat p (true :: info) rows

/-- Stage 1: the checks of R141 in their order, then the semantics of R142. -/
def stage1 (s : State) : Except Stop (List Bit) := do
  require (s.len.rowsCrcgen == s.len.info + 1) .shape
  require (s.len.info == s.cfg.a) .shape
  require (s.len.rowsCrcgen == s.cfg.k) .shape
  require (s.len.colsCrcgen == s.cfg.p) .shape
  let info ← readBits .info s.len.info s
  let rows ← readMatrix .crcgen s.len.rowsCrcgen s.len.colsCrcgen s
  return crcOf s.cfg.p info rows

/-- The meaning of `compute_crc`: it writes CRC and sets V_CRC (R143). -/
def execComputeCrc (s : State) : Outcome :=
  concludeStage .computeCrc (fun v r => { r with crc := v }) (stage1 s) s

end Sys2Proof.Machine
end

