-- ==== Sys2Proof/Machine/FrozenBitMapper.lean ====
section
/-! DEFINITION. Stage 4, FrozenBitMapper, `map_frozen` (spec/44_frozen_bit_mapper.md R170 to R178), and the gather
`extract_info`, which is not a stage (R175). -/

namespace Sys2Proof.Machine

/-- The order in which information positions are filled: the spec fixes position order (R174, U3, D29, entry 12). -/
def frozenOrder : FrozenOrder := .byPosition

/-- Walk the pattern in ascending position order: a position whose rank is greater than zero takes the next
unconsumed bit, any other is frozen to 0 (R172). -/
def scatterByPosition : List Rank → List Bit → List Bit
  | [], _ => []
  | r :: rs, bits =>
    if 0 < r then bits.headD false :: scatterByPosition rs bits.tail
    else false :: scatterByPosition rs bits

/-- The other reading of U3: positive positions are filled in ascending order of their rank, equal ranks in position
order (entry 12). Not the spec's order. -/
def scatterByRank (ranks : List Rank) (bits : List Bit) : List Bit :=
  ranks.mapIdx fun i r =>
    if 0 < r then
      bits.getD ((ranks.mapIdx fun k q => decide (0 < q ∧ (q < r ∨ q = r ∧ k < i))).count true) false
    else false

/-- The contract `map_frozen(bits, pattern, output_length)` on its values (R172). -/
def frozenOf (ranks : List Rank) (bits : List Bit) : List Bit :=
  match frozenOrder with
  | .byPosition => scatterByPosition ranks bits
  | .byRank => scatterByRank ranks bits

/-- The gather `extract_info(f, pattern)`: the bits at the positions whose rank is greater than zero, in ascending
position order (R175). -/
def extractInfo : List Bit → List Rank → List Bit
  | f :: fs, r :: rs => if 0 < r then f :: extractInfo fs rs else extractInfo fs rs
  | _, _ => []

/-- Stage 4: the checks of R171 in their order, then the semantics of R172. -/
def stage4 (s : State) : Except Stop (List Bit) := do
  require (s.len.ibpat == s.cfg.n) .shape
  let ranks ← readEntries .ibpat s.cfg.n s
  require (positiveCount ranks == s.cfg.a + s.cfg.p) .shape
  let bits ← readResult .ilv (s.cfg.a + s.cfg.p) s
  return frozenOf ranks bits

/-- The meaning of `map_frozen`: it writes FRZ and sets V_FRZ (R173). -/
def execMapFrozen (s : State) : Outcome :=
  concludeStage .mapFrozen (fun v r => { r with frz := v }) (stage4 s) s

end Sys2Proof.Machine
end

