-- ==== Sys2Proof/Machine/Interleaver.lean ====
section
/-! DEFINITION. Stage 3, Interleaver, `interleave` (spec/43_interleaver.md R160 to R167). -/

namespace Sys2Proof.Machine

/-- Stage 3: the length check of R161, the range and duplicate checks of R162, then the semantics of R163: output
bit `i` is bit `CILPAT[i]` of ICB. The whole pattern is read before its entries are checked (entry 26). -/
def stage3 (s : State) : Except Stop (List Bit) := do
  require (s.len.cilpat == s.cfg.a + s.cfg.p) .shape
  let pattern ← readEntries .cilpat s.len.cilpat s
  require (inRange pattern (s.cfg.a + s.cfg.p)) .index
  require (noDuplicate pattern) .index
  let icb ← readIcb s
  return gather icb pattern

/-- The meaning of `interleave`: it writes ILV and sets V_ILV (R164). -/
def execInterleave (s : State) : Outcome :=
  concludeStage .interleave (fun v r => { r with ilv := v }) (stage3 s) s

end Sys2Proof.Machine
end

