-- ==== Sys2Proof/Machine/PolarTransform.lean ====
section
/-! DEFINITION. Stage 5, PolarTransform, `transform` (spec/45_polar_transform.md R185 to R192). -/

namespace Sys2Proof.Machine

/-- The contract `transform(frozen_vector, gen_matrix)` on its values: the product with the square matrix, of the
same length as the vector; no constant 1 is put in front (R187). -/
def transformBits (frozen : List Bit) (rows : List (List Bit)) : List Bit := gf2Vecmat frozen.length frozen rows

/-- Stage 5: the checks of R186, then the semantics of R187. -/
def stage5 (s : State) : Except Stop (List Bit) := do
  require (s.len.rowsEncgen == s.cfg.n) .shape
  require (s.len.colsEncgen == s.cfg.n) .shape
  let frozen ← readResult .frz s.cfg.n s
  let rows ← readMatrix .encgen s.cfg.n s.cfg.n s
  return transformBits frozen rows

/-- The meaning of `transform`: it writes ENC and sets V_ENC (R188). -/
def execTransform (s : State) : Outcome :=
  concludeStage .transform (fun v r => { r with enc := v }) (stage5 s) s

end Sys2Proof.Machine
end

