-- ==== Sys2Proof/Machine/RateMatcher.lean ====
section
/-! DEFINITION. Stage 6, RateMatcher, `rate_match` (spec/46_rate_matcher.md R200 to R206). -/

namespace Sys2Proof.Machine

/-- Stage 6: the checks of R201 in their order, then the semantics of R202: output bit `i` is bit `RMPAT[i]` of
ENC, repeats allowed. -/
def stage6 (s : State) : Except Stop (List Bit) := do
  require (s.len.rmpat == s.cfg.e) .shape
  let pattern ← readEntries .rmpat s.cfg.e s
  require (inRange pattern s.cfg.n) .index
  let enc ← readResult .enc s.cfg.n s
  return gather enc pattern

/-- The meaning of `rate_match`: it writes RMO and sets V_RMO (R203). -/
def execRateMatch (s : State) : Outcome :=
  concludeStage .rateMatch (fun v r => { r with rmo := v }) (stage6 s) s

end Sys2Proof.Machine
end

