-- ==== Sys2Proof/Machine/Scrambler.lean ====
section
/-! DEFINITION. Stage 2, Scrambler, `scramble` (spec/42_scrambler.md R150 to R155). -/

namespace Sys2Proof.Machine

/-- The mask `zeros(P - R) ++ RNTI` (R152). -/
def scrambleMask (p : Nat) (rnti : List Bit) : List Bit := zeros (p - rnti.length) ++ rnti

/-- The contract `scramble(crc_bits, rnti_bits)` on its values: the identifier, left-padded with zeros, is XORed
onto the parity bits (R152). -/
def scrambleBits (crc rnti : List Bit) : List Bit := xorBits crc (scrambleMask crc.length rnti)

/-- Stage 2: the check of R151, then the semantics of R152. -/
def stage2 (s : State) : Except Stop (List Bit) := do
  require (decide (s.len.rnti ≤ s.cfg.p)) .shape
  let crc ← readResult .crc s.cfg.p s
  let rnti ← readBits .rnti s.len.rnti s
  return scrambleBits crc rnti

/-- The meaning of `scramble`: it writes SCR and sets V_SCR (R153). -/
def execScramble (s : State) : Outcome :=
  concludeStage .scramble (fun v r => { r with scr := v }) (stage2 s) s

end Sys2Proof.Machine
end

