-- ==== Sys2Proof/Machine/Validator.lean ====
section
/-! DEFINITION. Stage 7, Validator, `compare` (spec/47_validator.md R210 to R215). -/

namespace Sys2Proof.Machine

/-- The contract `compare(candidate, reference)` on its values: the number of positions that differ (R212). -/
def mismatchCount (candidate reference : List Bit) : Nat := (xorBits candidate reference).count true

/-- Stage 7: the check of R211, then the semantics of R212. -/
def stage7 (s : State) : Except Stop Nat := do
  require (s.len.ref == s.cfg.e) .shape
  let candidate ← readResult .rmo s.cfg.e s
  let reference ← readBits .ref s.cfg.e s
  return mismatchCount candidate reference

/-- The meaning of `compare`: it writes MMC, sets V_MMC and completes the run, whatever the count (R213, R114). -/
def execCompare (s : State) : Outcome :=
  concludeStage .compare (fun v r => { r with mmc := v }) (stage7 s) s

end Sys2Proof.Machine
end

