-- ==== Sys2Proof/Machine/Dispatch.lean ====
section
/-! DEFINITION. One arm per stage operation. -/

namespace Sys2Proof.Machine

def exec (i : Instr) (s : State) : Host.Outcome State Fault Refusal :=
  match i with
  | .computeCrc => Sys2Proof.Machine.execComputeCrc s
  | .scramble => Sys2Proof.Machine.execScramble s
  | .interleave => Sys2Proof.Machine.execInterleave s
  | .mapFrozen => Sys2Proof.Machine.execMapFrozen s
  | .transform => Sys2Proof.Machine.execTransform s
  | .rateMatch => Sys2Proof.Machine.execRateMatch s
  | .compare => Sys2Proof.Machine.execCompare s

end Sys2Proof.Machine
end

