-- ==== Sys2Proof/Machine/HostPort.lean ====
section
/-! DEFINITION. The host's side of the core: what a host write does (spec/10_state.md R31, R32, R34) and what a host
read returns (R32; spec/93_implementation_defined.md U7, U8). -/

namespace Sys2Proof.Machine

/-- A write to CTRL: bit 0 set is the start command (R31, R98), refused while BUSY (R274) and unless the host has
written everything a run may read (R112, R35, entry 2); bit 0 clear has no effect (R31, entry 17). -/
def writeCtrl (v : Nat) (s : State) : Outcome :=
  if v % 2 = 1 then
    if s.state = .busy then .refused .startWhileBusy
    else if s.initialised then .next (startRun s)
    else .refused .startBeforeInitialised
  else .next s

/-- A host write to register number `n` (R34): 0 to 14 only when not busy (R32, R273); 15 is CTRL; the status
registers 16 to 21 and the reserved numbers ignore it (R32, R34). -/
def writeCsr (n v : Nat) (s : State) : Outcome :=
  if n < 15 then
    if s.state = .busy then .refused .writeWhileBusy
    else .next { csrAssign s n v with written := csrMark s.written n }
  else if n = 15 then writeCtrl v s
  else .next s

/-- A host write of operand storage, only when not busy (R32, R273), at any index (entry 18). -/
def writeOperand (m : Memory) (s : State) : Outcome :=
  if s.state = .busy then .refused .writeWhileBusy else .next { s with mem := m }

/-- A host write to a result register: never one, the write is ignored (R32, R280, entry 17). -/
def writeResult (s : State) : Outcome := .next s

/-- Reset from outside, in any state (R270). The host's own plans are not the core's and stay. -/
def applyReset (s : State) : State := { State.reset with host := s.host }

/-- A host read of register number `n` (R34). `none` is "no value": a register not written since reset (R35), MMC
while BUSY or with its flag 0 (R275), a reserved number (U8). -/
def hostReadCsr (s : State) (n : Nat) : Option Nat :=
  if n < 15 then (if csrHolds s.written n then some (csrValue s n) else none)
  else match n with
    | 15 => some 0
    | 16 => some s.state.toCode
    | 17 => some s.stg.val
    | 18 => some s.errKind.toCode
    | 19 => some s.errStg.val
    | 20 => some s.valid.toNat
    | 21 => if s.state ≠ .busy ∧ hasFlag s.valid .compare then some s.res.mmc else none
    | _ => none

/-- A host read of an element of a bit-vector operand space: the value last written, if the index is valid (R60, R65).
While the length register holds no value no index is valid: DESIGN CHOICE, the spec leaves it open (R35, R60; entry
18). -/
def hostReadBit (s : State) (sp : BitSpace) (i : Nat) : Option Bit :=
  if csrHolds s.written sp.lengthCsr ∧ i < s.len.bits sp then (s.mem.bits sp).read i else none

/-- A host read of an element of a pattern operand space (R60, R65). None while the length register holds no value:
DESIGN CHOICE (R35, R60; entry 18). -/
def hostReadEntry (s : State) (sp : PatSpace) (i : Nat) : Option Nat :=
  if csrHolds s.written sp.lengthCsr ∧ i < s.len.entries sp then (s.mem.entries sp).read i else none

/-- A host read of an element of a matrix operand space (R60, R63, R65). None while either length register holds no
value: DESIGN CHOICE (R35, R60; entry 18). -/
def hostReadMatrix (s : State) (sp : MatSpace) (i j : Nat) : Option Bit :=
  if (csrHolds s.written sp.rowsCsr ∧ i < s.len.rows sp) ∧ (csrHolds s.written sp.colsCsr ∧ j < s.len.cols sp) then
    (s.mem.matrix sp).read (i, j)
  else none

/-- A host read of an element of a bit-vector result register: when its flag is set and the core is not busy (R32,
R275), within the register's length (entry 25). -/
def hostReadResult (s : State) (r : BitReg) (i : Nat) : Option Bit :=
  if s.state ≠ .busy ∧ hasFlag s.valid r.writer then (s.res.bits r)[i]? else none

end Sys2Proof.Machine
end

