-- ==== Sys2Proof/Machine/Sequencer.lean ====
section
/-! DEFINITION. The sequencer: the hardwired program store and the fetch (spec/30_encoding.md R90), one step of the
sequencer (spec/40_pipeline_sequencer.md R113), one action of the host, and which of the two agents moves. -/

namespace Sys2Proof.Machine

/-- The hardwired program store: entry `k` is the stage code `k`, entry 0 is halt (R90). -/
def rom : Fin 8 → Code
  | 0 => 0b000#3
  | 1 => 0b001#3
  | 2 => 0b010#3
  | 3 => 0b011#3
  | 4 => 0b100#3
  | 5 => 0b101#3
  | 6 => 0b110#3
  | 7 => 0b111#3

/-- One step of the sequencer (R113): it has one exactly when BUSY, and then runs the stage that `ROM[STG]` names
(R90). -/
def sequencerStep (s : State) : Outcome :=
  if s.state = .busy then
    match decode (rom s.stg) with
    | .stage i => exec i s
    | .halt => .fault .haltFetched
  else .refused .waitingForStart

/-- One action of the host (R20(b)), on a state from which the action has been taken off the host's list. -/
def hostStep (a : HostAction) (s : State) : Outcome :=
  match a with
  | .writeCsr n v => writeCsr n v s
  | .writeBit sp i b => writeOperand (s.mem.writeBit sp i b) s
  | .writeEntry sp i v => writeOperand (s.mem.writeEntry sp i v) s
  | .writeMatrix sp i j b => writeOperand (s.mem.writeMatrix sp i j b) s
  | .writeResult _ _ _ => writeResult s
  | .wait => if s.state = .busy then sequencerStep s else .next s
  | .reset => .next (applyReset s)

/-- Which agent moves (entry 6): the host, if it has an action to do; else the sequencer. -/
def stepAgents (s : State) : Outcome :=
  match s.host with
  | [] => sequencerStep s
  | a :: rest => hostStep a { s with host := rest }

/-- The sequencer placed at the stage whose code is `w`, in a run whose earlier stages have delivered their results;
a word that is no code places it at the halt entry (entry 11). -/
def placeAtStage (s : State) (w : Nat) : State :=
  let k : Fin 8 := if w < 8 then Fin.ofNat 8 w else 0
  { s with host := [], state := .busy, stg := k, valid := flagsBelow k, errKind := .none, errStg := 0 }

end Sys2Proof.Machine
end

