-- ==== Sys2Proof/Machine/Step.lean ====
section
/-! DEFINITION. One step of the machine, and how the host of the pipeline places an instruction where the next step
fetches it. -/

namespace Sys2Proof.Machine

/-- One step: the agent whose turn it is moves (spec/10_state.md R20, spec/40_pipeline_sequencer.md R113). -/
def step (s : State) : Host.Outcome State Fault Refusal := stepAgents s

/-- The state whose very next step runs the stage operation with code `w`. The program store is hardwired (R90), so
this selects the stage and stores nothing (entry 11). -/
def State.withFetchWord (s : State) (_nbits w : Nat) : State := placeAtStage s w

end Sys2Proof.Machine
end

