-- ==== Sys2Proof/Machine/Pipeline.lean ====
section
/-! DEFINITION. The whole run as one function of its nine arguments (spec/40_pipeline_sequencer.md R117), with the
checks of the stage files in their order (spec/60_exceptions.md R234, R237). It uses no state: claims compare the
machine with it. -/

namespace Sys2Proof.Machine

/-- Raise the error `e` at stage `k` unless the condition holds. -/
def requireAt (k : Fin 8) (c : Bool) (e : StageError) : Except (StageError × Fin 8) Unit :=
  if c then .ok () else .error (e, k)

/-- `run(cfg, INFO, CRCGEN, RNTI, CILPAT, IBPAT, ENCGEN, RMPAT, REF)` (R117): RateMatchedBits and MismatchCount, or
the kind of the first error and the stage that raised it. -/
def pipelineRun (x : RunInput) : Except (StageError × Fin 8) (List Bit × Nat) := do
  requireAt 1 (x.crcgen.rows == x.info.length + 1) .shape
  requireAt 1 (x.info.length == x.cfg.a) .shape
  requireAt 1 (x.crcgen.rows == x.cfg.k) .shape
  requireAt 1 (x.crcgen.cols == x.cfg.p) .shape
  let crc := crcOf x.cfg.p x.info x.crcgen.rowList
  requireAt 2 (decide (x.rnti.length ≤ x.cfg.p)) .shape
  let scr := scrambleBits crc x.rnti
  let icb := x.info ++ scr
  requireAt 3 (x.cilpat.length == x.cfg.a + x.cfg.p) .shape
  requireAt 3 (inRange x.cilpat (x.cfg.a + x.cfg.p)) .index
  requireAt 3 (noDuplicate x.cilpat) .index
  let ilv := gather icb x.cilpat
  requireAt 4 (x.ibpat.length == x.cfg.n) .shape
  requireAt 4 (positiveCount x.ibpat == x.cfg.a + x.cfg.p) .shape
  let frz := frozenOf x.ibpat ilv
  requireAt 5 (x.encgen.rows == x.cfg.n) .shape
  requireAt 5 (x.encgen.cols == x.cfg.n) .shape
  let enc := transformBits frz x.encgen.rowList
  requireAt 6 (x.rmpat.length == x.cfg.e) .shape
  requireAt 6 (inRange x.rmpat x.cfg.n) .index
  let rmo := gather enc x.rmpat
  requireAt 7 (x.ref.length == x.cfg.e) .shape
  return (rmo, mismatchCount rmo x.ref)

end Sys2Proof.Machine
end

