-- ==== Sys2Proof/Safety.lean ====
section
/-! DEFINITION. The terms claims are written in: indexed XOR and counting (spec/00_scope.md R9, R13), the invariant
of every state a host can bring about (spec/10_state.md R27 to R30, spec/40_pipeline_sequencer.md R113, R120), what
two states share, and the runs of the machine. -/

namespace Sys2Proof.Machine

/-- `XOR_{i=0}^{n-1} f(i)` (R9). -/
def xorRange : Nat → (Nat → Bit) → Bit
  | 0, _ => false
  | n + 1, f => Bool.xor (xorRange n f) (f n)

/-- `count(i in 0..n-1 : p(i))` (R13). -/
def countRange : Nat → (Nat → Bool) → Nat
  | 0, _ => 0
  | n + 1, p => countRange n p + (if p n then 1 else 0)

/-- STATE, STG, ERRKIND, ERRSTG and VALID say one thing (R27 to R30, R113, R114, R238): idle with nothing, busy before
stage STG with the flags of the stages before it, done with every flag, or aborted at stage STG. -/
def State.coherent (s : State) : Bool :=
  match s.state with
  | .idle => s.stg == 0 && s.errKind == .none && s.errStg == 0 && s.valid == 0#7
  | .busy => s.stg != 0 && s.errKind == .none && s.errStg == 0 && s.valid == flagsBelow s.stg
  | .done => s.stg == 0 && s.errKind == .none && s.errStg == 0 && s.valid == BitVec.allOnes 7
  | .err => s.stg != 0 && s.errKind != .none && s.errStg == s.stg && s.valid == flagsBelow s.stg

/-- The length the configuration gives a bit-vector result register (R25, R120). -/
def resultLength (c : Cfg) : BitReg → Nat
  | .crc => c.p
  | .scr => c.p
  | .ilv => c.a + c.p
  | .frz => c.n
  | .enc => c.n
  | .rmo => c.e

/-- The six bit-vector result registers. -/
def allBitRegs : List BitReg := [.crc, .scr, .ilv, .frz, .enc, .rmo]

/-- Every result register whose flag is set has the length the configuration gives it (R120). -/
def State.lengthsOk (s : State) : Bool :=
  allBitRegs.all fun r => !hasFlag s.valid r.writer || (s.res.bits r).length == resultLength s.cfg r

/-- A result register whose flag is 0 has the placeholder contents (entry 4). -/
def State.noValueBehindClearFlags (s : State) : Bool :=
  (allBitRegs.all fun r => hasFlag s.valid r.writer || s.res.bits r == []) &&
  (hasFlag s.valid .compare || s.res.mmc == 0)

/-- What holds of every state a host can bring about: operand storage is in canonical form; the sequencer's registers
agree; no register without a value has contents; and while a run is in progress the host has supplied all it may
read, the results so far have their lengths, and past stage 1 the input block has the declared length. -/
abbrev State.Inv (s : State) : Prop :=
  s.mem.wf = true ∧ s.coherent = true ∧ s.noValueBehindClearFlags = true ∧
  (s.state = .busy → s.initialised = true ∧ s.lengthsOk = true ∧ (2 ≤ s.stg.val → s.len.info = s.cfg.a))

/-- Everything the host alone writes, and what the host is about to do, is the same (R32). -/
def sameHostSide (s t : State) : Prop :=
  t.cfg = s.cfg ∧ t.len = s.len ∧ t.written = s.written ∧ t.host = s.host

/-- Every element of every operand space reads as before (R66). -/
def sameElements (s t : State) : Prop :=
  (∀ sp i, (t.mem.bits sp).read i = (s.mem.bits sp).read i) ∧
  (∀ sp i, (t.mem.entries sp).read i = (s.mem.entries sp).read i) ∧
  (∀ sp i j, (t.mem.matrix sp).read (i, j) = (s.mem.matrix sp).read (i, j))

/-- The sequencer's own registers are the same (R32). -/
def sameSequencer (s t : State) : Prop :=
  t.res = s.res ∧ t.valid = s.valid ∧ t.state = s.state ∧ t.stg = s.stg ∧ t.errKind = s.errKind ∧
  t.errStg = s.errStg

/-- The two inputs agree on the configuration and on every operand read by stages 1 to `k` (R111, D12). -/
def agreeUpTo (k : Fin 8) (x y : RunInput) : Prop :=
  x.cfg = y.cfg ∧ x.info = y.info ∧ x.crcgen = y.crcgen ∧
  (2 ≤ k.val → x.rnti = y.rnti) ∧ (3 ≤ k.val → x.cilpat = y.cilpat) ∧ (4 ≤ k.val → x.ibpat = y.ibpat) ∧
  (5 ≤ k.val → x.encgen = y.encgen) ∧ (6 ≤ k.val → x.rmpat = y.rmpat) ∧ (7 ≤ k.val → x.ref = y.ref)

/-- `n` steps of the machine. -/
def runSteps (n : Nat) (s : State) : Outcome := Host.Core.run Sys2Proof.core n s

/-- A host that issues the start command and then leaves the core alone for seven steps. -/
def startAndWait : List HostAction := .writeCsr 15 1 :: List.replicate 7 .wait

/-- The state shows the result `r` of a run (R116, R117). -/
def showsResult (t : State) (r : Except (StageError × Fin 8) (List Bit × Nat)) : Prop :=
  match r with
  | .ok (rmo, mmc) => t.state = .done ∧ t.res.rmo = rmo ∧ t.res.mmc = mmc ∧ t.valid = BitVec.allOnes 7 ∧
      t.stg = 0 ∧ t.errKind = .none ∧ t.errStg = 0
  | .error (e, k) => t.state = .err ∧ t.errKind = e.kind ∧ t.errStg = k ∧ t.stg = k ∧ t.valid = flagsBelow k

end Sys2Proof.Machine
end

