-- ==== Sys2Proof/Certificates/Slice0/Obligations.lean ====
section
/-! DEFINITION. The statements for the provers, from the numbered rules of spec/. -/

open Sys2Proof Sys2Proof.Machine

/-! ### Reset and the host's reads -/

/-- R35: what the host finds after reset, and that what has not been written has no value and cannot be run on. That the
start command is then refused is entry 2, that a read gives none is entry 23. -/
def Obligations.ResetHoldsNoValueAndNoRun : Prop :=
  hostReadCsr State.reset 16 = some 0 ∧ hostReadCsr State.reset 17 = some 0 ∧ hostReadCsr State.reset 18 = some 0 ∧
  hostReadCsr State.reset 19 = some 0 ∧ hostReadCsr State.reset 20 = some 0 ∧ hostReadCsr State.reset 15 = some 0 ∧
  (∀ n, n < 15 → hostReadCsr State.reset n = none) ∧ hostReadCsr State.reset 21 = none ∧
  (∀ r i, hostReadResult State.reset r i = none) ∧
  (∀ sp i, (State.reset.mem.bits sp).read i = none) ∧ (∀ sp i, (State.reset.mem.entries sp).read i = none) ∧
  (∀ sp i j, (State.reset.mem.matrix sp).read (i, j) = none) ∧
  (∀ sp i, hostReadBit State.reset sp i = none) ∧ (∀ sp i, hostReadEntry State.reset sp i = none) ∧
  (∀ sp i j, hostReadMatrix State.reset sp i j = none) ∧
  (∀ (s : State) (n : Nat), n < 15 → s.written.getLsbD n = false → hostReadCsr s n = none) ∧
  (∀ (s : State) (v : Nat), s.state ≠ .busy → v % 2 = 1 →
    ((∃ n, n < 15 ∧ s.written.getLsbD n = false) ∨ s.runInput = none) →
    hostStep (.writeCsr 15 v) s = .refused .startBeforeInitialised)

/-- R270: reset in any state puts every piece of state at its reset value; the host's own plans are not the core's. -/
def Obligations.ResetFromAnyStateGivesResetState : Prop :=
  ∀ s : State, ∃ t, hostStep .reset s = .next t ∧ t.host = s.host ∧ t.state = .idle ∧ t.stg = 0 ∧
    t.errKind = .none ∧ t.errStg = 0 ∧ t.valid = 0#7 ∧ (∀ n, n < 15 → hostReadCsr t n = none) ∧
    (∀ sp i, (t.mem.bits sp).read i = none) ∧ (∀ sp i, (t.mem.entries sp).read i = none) ∧
    (∀ sp i j, (t.mem.matrix sp).read (i, j) = none) ∧ (∀ sp i, hostReadBit t sp i = none) ∧
    (∀ sp i, hostReadEntry t sp i = none) ∧ (∀ sp i j, hostReadMatrix t sp i j = none) ∧
    (∀ r i, hostReadResult t r i = none) ∧ hostReadCsr t 21 = none

/-- R27, R32, R275: a result register is read by the host only when its flag is set and the core is not busy, and then
gives its bits, as many as it holds (entry 25); so does MMC. -/
def Obligations.ResultReadsNeedFlagAndNotBusy : Prop :=
  ∀ (s : State) (r : BitReg) (i : Nat),
    (s.state = .busy ∨ s.valid.getLsbD (r.writer.number.val - 1) = false → hostReadResult s r i = none) ∧
    (s.state ≠ .busy → s.valid.getLsbD (r.writer.number.val - 1) = true → hostReadResult s r i = (s.res.bits r)[i]?) ∧
    (s.state = .busy ∨ s.valid.getLsbD 6 = false → hostReadCsr s 21 = none) ∧
    (s.state ≠ .busy → s.valid.getLsbD 6 = true → hostReadCsr s 21 = some s.res.mmc)

/-- R29, R30, R31, R34, R231: the numbers the host reads for STATE, STG, ERRKIND, ERRSTG, VALID and CTRL, always; and
a reserved register number reads as no value (U8, entry 17). -/
def Obligations.StatusRegistersReadTheirCodes : Prop :=
  ∀ s : State,
    hostReadCsr s 16 = some (match s.state with | .idle => 0 | .busy => 1 | .done => 2 | .err => 3) ∧
    hostReadCsr s 17 = some s.stg.val ∧
    hostReadCsr s 18 = some (match s.errKind with | .none => 0 | .shape => 1 | .index => 2) ∧
    hostReadCsr s 19 = some s.errStg.val ∧ hostReadCsr s 20 = some s.valid.toNat ∧
    hostReadCsr s 15 = some 0 ∧ (∀ n, 22 ≤ n → hostReadCsr s n = none)

/-! ### Encoding and fetch -/

/-- R92, R99: the words written out from the table of R92 decode to their stages, word 0 to none, and no wider word is
a code (entry 10). -/
def Obligations.StageCodesDecodeAsTabulated : Prop :=
  decodeTableWord 8 0b001 = some .computeCrc ∧ decodeTableWord 8 0b010 = some .scramble ∧
  decodeTableWord 8 0b011 = some .interleave ∧ decodeTableWord 8 0b100 = some .mapFrozen ∧
  decodeTableWord 8 0b101 = some .transform ∧ decodeTableWord 8 0b110 = some .rateMatch ∧
  decodeTableWord 8 0b111 = some .compare ∧ decodeTableWord 8 0b000 = none ∧
  (∀ n w, 8 ≤ w → decodeTableWord n w = none)

/-- R92, R99: decoding the encoding of any stage operation gives it back, and a code that decodes to a stage is that
stage's encoding. -/
def Obligations.DecodeAndEncodeAgree : Prop :=
  (∀ i : Instr, decode (encode i) = .stage i) ∧ (∀ (c : Code) (i : Instr), decode c = .stage i → encode i = c) ∧
  decode 0#3 = .halt

/-- R90, R113: while BUSY, a step runs the stage operation that the program store holds at STG, which is stage number
STG; the same when the host waits; and when not BUSY the sequencer has no step (entries 6 and 7). -/
def Obligations.StepRunsTheFetchedStage : Prop :=
  (∀ (s : State) (i : Instr), s.state = .busy → decode (rom s.stg) = .stage i →
    i.number = s.stg ∧ (s.host = [] → step s = exec i s) ∧
    (∀ rest, s.host = .wait :: rest → step s = exec i { s with host := rest })) ∧
  (∀ s : State, s.stg ≠ 0 → ∃ i, decode (rom s.stg) = .stage i) ∧
  (∀ s : State, s.state ≠ .busy → s.host = [] → step s = .refused .waitingForStart)

/-- R90, R93: the halt code at STG 0 is not executed: the model stops instead (entries 7 and 21). -/
def Obligations.HaltCodeIsNotExecuted : Prop :=
  ∀ s : State, s.stg = 0 → s.host = [] → (s.state = .busy → step s = .fault .haltFetched) ∧
    (s.state ≠ .busy → step s = .refused .waitingForStart)

/-! ### The host's actions -/

/-- R112: the start command, from any state that is not BUSY and in which the host has written everything a run may
read (entry 2). All seven result registers hold no value, and nothing the host wrote changes. -/
def Obligations.StartCommandBeginsARun : Prop :=
  ∀ (s : State) (v : Nat), s.state ≠ .busy → s.initialised = true → v % 2 = 1 →
    ∃ t, hostStep (.writeCsr 15 v) s = .next t ∧ t.valid = 0#7 ∧ t.errKind = .none ∧ t.errStg = 0 ∧ t.stg = 1 ∧
      t.state = .busy ∧ sameHostSide s t ∧ sameElements s t ∧ (∀ r i, hostReadResult t r i = none) ∧
      hostReadCsr t 21 = none

/-- R273, R274: while BUSY, writes of configuration, lengths and operands and the start command have no transition. -/
def Obligations.HostWritesWhileBusyAreRefused : Prop :=
  ∀ s : State, s.state = .busy →
    (∀ n v, n < 15 → hostStep (.writeCsr n v) s = .refused .writeWhileBusy) ∧
    (∀ sp i b, hostStep (.writeBit sp i b) s = .refused .writeWhileBusy) ∧
    (∀ sp i v, hostStep (.writeEntry sp i v) s = .refused .writeWhileBusy) ∧
    (∀ sp i j b, hostStep (.writeMatrix sp i j b) s = .refused .writeWhileBusy) ∧
    (∀ v, v % 2 = 1 → hostStep (.writeCsr 15 v) s = .refused .startWhileBusy)

/-- R31, R32, R34: writes to the status registers, to reserved numbers and to result registers are ignored, and so is a
write to CTRL with bit 0 clear, in every state (entry 17). -/
def Obligations.ReadOnlyWritesAreIgnored : Prop :=
  ∀ s : State, (∀ n v, 16 ≤ n → hostStep (.writeCsr n v) s = .next s) ∧
    (∀ r i b, hostStep (.writeResult r i b) s = .next s) ∧
    (∀ v, v % 2 = 0 → hostStep (.writeCsr 15 v) s = .next s)

/-- R32, R34, D30: a host write to register number n below 15 when not BUSY is what the host reads there afterwards;
every other register, every operand element and all of the sequencer's state stay. -/
def Obligations.HostRegisterWriteIsReadBack : Prop :=
  ∀ (s : State) (n v : Nat), s.state ≠ .busy → n < 15 →
    ∃ t, hostStep (.writeCsr n v) s = .next t ∧ hostReadCsr t n = some v ∧
      (∀ m, m ≠ n → hostReadCsr t m = hostReadCsr s m) ∧ sameElements s t ∧ sameSequencer s t ∧ t.host = s.host

/-- R60, R65: a host write of an operand element when not BUSY is what is held there afterwards, and what the host then
reads there below the length register; at or beyond it, or with no length written, the host reads no value. Every other
element of that space and of every other space is held and read as before, and nothing else changes. That any index is
accepted, and that no length written means no value, is the model's choice (entry 18). -/
def Obligations.HostElementWriteIsReadBack : Prop :=
  ∀ s : State, s.state ≠ .busy →
    (∀ sp i b, ∃ t, hostStep (.writeBit sp i b) s = .next t ∧ (t.mem.bits sp).read i = some b ∧
      (hostReadCsr s sp.lengthCsr = none → hostReadBit t sp i = none) ∧
      (∀ n, hostReadCsr s sp.lengthCsr = some n → hostReadBit t sp i = if i < n then some b else none) ∧
      (∀ sp' i', (sp', i') ≠ (sp, i) → (t.mem.bits sp').read i' = (s.mem.bits sp').read i') ∧
      (∀ sp' i', (sp', i') ≠ (sp, i) → hostReadBit t sp' i' = hostReadBit s sp' i') ∧
      (∀ sp' i', hostReadEntry t sp' i' = hostReadEntry s sp' i') ∧
      (∀ sp' i' j', hostReadMatrix t sp' i' j' = hostReadMatrix s sp' i' j') ∧
      (∀ sp' i', (t.mem.entries sp').read i' = (s.mem.entries sp').read i') ∧
      (∀ sp' i' j', (t.mem.matrix sp').read (i', j') = (s.mem.matrix sp').read (i', j')) ∧
      sameHostSide s t ∧ sameSequencer s t) ∧
    (∀ sp i v, ∃ t, hostStep (.writeEntry sp i v) s = .next t ∧ (t.mem.entries sp).read i = some v ∧
      (hostReadCsr s sp.lengthCsr = none → hostReadEntry t sp i = none) ∧
      (∀ n, hostReadCsr s sp.lengthCsr = some n → hostReadEntry t sp i = if i < n then some v else none) ∧
      (∀ sp' i', (sp', i') ≠ (sp, i) → (t.mem.entries sp').read i' = (s.mem.entries sp').read i') ∧
      (∀ sp' i', (sp', i') ≠ (sp, i) → hostReadEntry t sp' i' = hostReadEntry s sp' i') ∧
      (∀ sp' i', hostReadBit t sp' i' = hostReadBit s sp' i') ∧
      (∀ sp' i' j', hostReadMatrix t sp' i' j' = hostReadMatrix s sp' i' j') ∧
      (∀ sp' i', (t.mem.bits sp').read i' = (s.mem.bits sp').read i') ∧
      (∀ sp' i' j', (t.mem.matrix sp').read (i', j') = (s.mem.matrix sp').read (i', j')) ∧
      sameHostSide s t ∧ sameSequencer s t) ∧
    (∀ sp i j b, ∃ t, hostStep (.writeMatrix sp i j b) s = .next t ∧ (t.mem.matrix sp).read (i, j) = some b ∧
      (hostReadCsr s sp.rowsCsr = none ∨ hostReadCsr s sp.colsCsr = none → hostReadMatrix t sp i j = none) ∧
      (∀ r c, hostReadCsr s sp.rowsCsr = some r → hostReadCsr s sp.colsCsr = some c →
        hostReadMatrix t sp i j = if i < r ∧ j < c then some b else none) ∧
      (∀ sp' i' j', (sp', i', j') ≠ (sp, i, j) →
        (t.mem.matrix sp').read (i', j') = (s.mem.matrix sp').read (i', j')) ∧
      (∀ sp' i' j', (sp', i', j') ≠ (sp, i, j) → hostReadMatrix t sp' i' j' = hostReadMatrix s sp' i' j') ∧
      (∀ sp' i', hostReadBit t sp' i' = hostReadBit s sp' i') ∧
      (∀ sp' i', hostReadEntry t sp' i' = hostReadEntry s sp' i') ∧
      (∀ sp' i', (t.mem.bits sp').read i' = (s.mem.bits sp').read i') ∧
      (∀ sp' i', (t.mem.entries sp').read i' = (s.mem.entries sp').read i') ∧
      sameHostSide s t ∧ sameSequencer s t)

/-! ### What each stage computes, and that it completes -/

/-- R142, R143: when the checks of R141 pass and the operands hold values, `compute_crc` completes, and
`CRC[j] = CRCGEN[0][j] XOR XOR_{i=1}^{A} (INFO[i-1] AND CRCGEN[i][j])`. Nothing else changes but V_CRC and STG. -/
def Obligations.ComputeCrcWritesParityBits : Prop :=
  ∀ (s : State) (info : Nat → Bit) (m : Nat → Nat → Bit),
    s.len.rowsCrcgen = s.len.info + 1 → s.len.info = s.cfg.a → s.len.rowsCrcgen = s.cfg.k →
    s.len.colsCrcgen = s.cfg.p →
    (∀ i, i < s.cfg.a → (s.mem.bits .info).read i = some (info i)) →
    (∀ i j, i < s.cfg.k → j < s.cfg.p → (s.mem.matrix .crcgen).read (i, j) = some (m i j)) →
    ∃ out : List Bit,
      exec .computeCrc s =
        .next { s with res := { s.res with crc := out }, valid := s.valid ||| 0b0000001#7, stg := 2 } ∧
      out.length = s.cfg.p ∧
      ∀ j, j < s.cfg.p → out[j]? = some (Bool.xor (m 0 j) (xorRange s.cfg.a fun i => info i && m (i + 1) j))

/-- R152, R153: when `LEN_RNTI <= P` and the operands hold values, `scramble` completes, and `SCR[j]` is `CRC[j]` for
`j < P-R` and `CRC[j] XOR RNTI[j-(P-R)]` from there on. Nothing else changes but V_SCR and STG. -/
def Obligations.ScrambleMasksTheSuffix : Prop :=
  ∀ (s : State) (rnti : Nat → Bit),
    s.len.rnti ≤ s.cfg.p → s.valid.getLsbD 0 = true → s.res.crc.length = s.cfg.p →
    (∀ i, i < s.len.rnti → (s.mem.bits .rnti).read i = some (rnti i)) →
    ∃ out : List Bit,
      exec .scramble s =
        .next { s with res := { s.res with scr := out }, valid := s.valid ||| 0b0000010#7, stg := 3 } ∧
      out.length = s.cfg.p ∧
      ∀ j, j < s.cfg.p → out[j]? = some (if j < s.cfg.p - s.len.rnti then s.res.crc.getD j false
        else Bool.xor (s.res.crc.getD j false) (rnti (j - (s.cfg.p - s.len.rnti))))

/-- R163, R164, R26: when CILPAT is a permutation of `0..A+P-1` and the operands hold values, `interleave` completes, and
`ILV[i] = ICB[CILPAT[i]]` with `ICB = INFO ++ SCR`. Nothing else changes but V_ILV and STG. -/
def Obligations.InterleaveGathersByPattern : Prop :=
  ∀ (s : State) (pat : Nat → Nat) (info : Nat → Bit),
    s.len.cilpat = s.cfg.a + s.cfg.p → s.cfg.a ≤ s.len.info →
    (∀ i, i < s.cfg.a + s.cfg.p → (s.mem.entries .cilpat).read i = some (pat i)) →
    (∀ i, i < s.cfg.a + s.cfg.p → pat i < s.cfg.a + s.cfg.p) →
    (∀ i i', i < i' → i' < s.cfg.a + s.cfg.p → pat i ≠ pat i') →
    (∀ i, i < s.cfg.a → (s.mem.bits .info).read i = some (info i)) →
    s.valid.getLsbD 1 = true → s.res.scr.length = s.cfg.p →
    ∃ out : List Bit,
      exec .interleave s =
        .next { s with res := { s.res with ilv := out }, valid := s.valid ||| 0b0000100#7, stg := 4 } ∧
      out.length = s.cfg.a + s.cfg.p ∧
      ∀ i, i < s.cfg.a + s.cfg.p → out[i]? = some (if pat i < s.cfg.a then info (pat i)
        else s.res.scr.getD (pat i - s.cfg.a) false)

/-- R172, R173: when the checks of R171 pass and the operands hold values, `map_frozen` completes, and
`FRZ[i] = ILV[count(i' < i : IBPAT[i'] > 0)]` if `IBPAT[i] > 0`, else 0. Nothing else changes but V_FRZ and STG. That
the order is position order is a choice: the source flags it as an open question (R174), the spec decides it (D29, U3),
and log entry 12 marks it. -/
def Obligations.MapFrozenFillsInPositionOrder : Prop :=
  ∀ (s : State) (rank : Nat → Nat),
    s.len.ibpat = s.cfg.n →
    (∀ i, i < s.cfg.n → (s.mem.entries .ibpat).read i = some (rank i)) →
    countRange s.cfg.n (fun i => decide (0 < rank i)) = s.cfg.a + s.cfg.p →
    s.valid.getLsbD 2 = true → s.res.ilv.length = s.cfg.a + s.cfg.p →
    ∃ out : List Bit,
      exec .mapFrozen s =
        .next { s with res := { s.res with frz := out }, valid := s.valid ||| 0b0001000#7, stg := 5 } ∧
      out.length = s.cfg.n ∧
      ∀ i, i < s.cfg.n → out[i]? = some (if 0 < rank i
        then s.res.ilv.getD (countRange i (fun i' => decide (0 < rank i'))) false else false)

/-- R187, R188: when the checks of R186 pass and the operands hold values, `transform` completes, and
`ENC[j] = XOR_{i=0}^{N-1} (FRZ[i] AND ENCGEN[i][j])`. Nothing else changes but V_ENC and STG. -/
def Obligations.TransformMultipliesByTheMatrix : Prop :=
  ∀ (s : State) (m : Nat → Nat → Bit),
    s.len.rowsEncgen = s.cfg.n → s.len.colsEncgen = s.cfg.n → s.valid.getLsbD 3 = true →
    s.res.frz.length = s.cfg.n →
    (∀ i j, i < s.cfg.n → j < s.cfg.n → (s.mem.matrix .encgen).read (i, j) = some (m i j)) →
    ∃ out : List Bit,
      exec .transform s =
        .next { s with res := { s.res with enc := out }, valid := s.valid ||| 0b0010000#7, stg := 6 } ∧
      out.length = s.cfg.n ∧
      ∀ j, j < s.cfg.n → out[j]? = some (xorRange s.cfg.n fun i => s.res.frz.getD i false && m i j)

/-- R202, R203: when the checks of R201 pass and the operands hold values, `rate_match` completes, and
`RMO[i] = ENC[RMPAT[i]]`, repeats allowed. Nothing else changes but V_RMO and STG. -/
def Obligations.RateMatchGathersByIndex : Prop :=
  ∀ (s : State) (pat : Nat → Nat),
    s.len.rmpat = s.cfg.e →
    (∀ i, i < s.cfg.e → (s.mem.entries .rmpat).read i = some (pat i)) →
    (∀ i, i < s.cfg.e → pat i < s.cfg.n) →
    s.valid.getLsbD 4 = true → s.res.enc.length = s.cfg.n →
    ∃ out : List Bit,
      exec .rateMatch s =
        .next { s with res := { s.res with rmo := out }, valid := s.valid ||| 0b0100000#7, stg := 7 } ∧
      out.length = s.cfg.e ∧ ∀ i, i < s.cfg.e → out[i]? = some (s.res.enc.getD (pat i) false)

/-- R212, R213, R114: when `LEN_REF = E` and the operands hold values, `compare` completes the run, whatever the count:
`MMC = count(i in 0..E-1 : RMO[i] != REF[i])`, STG 0, STATE DONE; nothing else changes but V_MMC. -/
def Obligations.CompareCountsMismatchesAndCompletes : Prop :=
  ∀ (s : State) (ref : Nat → Bit),
    s.len.ref = s.cfg.e → s.valid.getLsbD 5 = true → s.res.rmo.length = s.cfg.e →
    (∀ i, i < s.cfg.e → (s.mem.bits .ref).read i = some (ref i)) →
    exec .compare s =
      .next { s with
        res := { s.res with mmc := countRange s.cfg.e (fun i => s.res.rmo.getD i false != ref i) }
        valid := s.valid ||| 0b1000000#7, stg := 0, state := .done }

/-! ### When each stage raises an error: the abort step R238 -/

/-- R141, R238: any of the four shape checks of stage 1 failing aborts the run with ShapeError at stage 1. -/
def Obligations.ComputeCrcRaisesShapeError : Prop :=
  ∀ s : State,
    (s.len.rowsCrcgen ≠ s.len.info + 1 ∨ s.len.info ≠ s.cfg.a ∨ s.len.rowsCrcgen ≠ s.cfg.k ∨
      s.len.colsCrcgen ≠ s.cfg.p) →
    exec .computeCrc s = .next { s with errKind := .shape, errStg := 1, state := .err }

/-- R151, R238: an identifier longer than P aborts the run with ShapeError at stage 2. -/
def Obligations.ScrambleRaisesShapeError : Prop :=
  ∀ s : State, s.cfg.p < s.len.rnti →
    exec .scramble s = .next { s with errKind := .shape, errStg := 2, state := .err }

/-- R161, R162, R237, R238: a CILPAT of the wrong length is a ShapeError whatever its entries; of the right length, an
entry out of range or a repeated entry is an IndexError. -/
def Obligations.InterleaveRaisesShapeThenIndexError : Prop :=
  ∀ s : State,
    (s.len.cilpat ≠ s.cfg.a + s.cfg.p →
      exec .interleave s = .next { s with errKind := .shape, errStg := 3, state := .err }) ∧
    (∀ pat : Nat → Nat, s.len.cilpat = s.cfg.a + s.cfg.p →
      (∀ i, i < s.cfg.a + s.cfg.p → (s.mem.entries .cilpat).read i = some (pat i)) →
      ((∃ i, i < s.cfg.a + s.cfg.p ∧ s.cfg.a + s.cfg.p ≤ pat i) ∨
        (∃ i i', i < i' ∧ i' < s.cfg.a + s.cfg.p ∧ pat i = pat i')) →
      exec .interleave s = .next { s with errKind := .index, errStg := 3, state := .err })

/-- R171, R238: an IBPAT of the wrong length, or with a number of positive entries other than A+P, is a ShapeError at
stage 4. -/
def Obligations.MapFrozenRaisesShapeError : Prop :=
  ∀ s : State,
    (s.len.ibpat ≠ s.cfg.n →
      exec .mapFrozen s = .next { s with errKind := .shape, errStg := 4, state := .err }) ∧
    (∀ rank : Nat → Nat, s.len.ibpat = s.cfg.n →
      (∀ i, i < s.cfg.n → (s.mem.entries .ibpat).read i = some (rank i)) →
      countRange s.cfg.n (fun i => decide (0 < rank i)) ≠ s.cfg.a + s.cfg.p →
      exec .mapFrozen s = .next { s with errKind := .shape, errStg := 4, state := .err })

/-- R186, R238: a matrix that is not N by N is a ShapeError at stage 5. -/
def Obligations.TransformRaisesShapeError : Prop :=
  ∀ s : State, (s.len.rowsEncgen ≠ s.cfg.n ∨ s.len.colsEncgen ≠ s.cfg.n) →
    exec .transform s = .next { s with errKind := .shape, errStg := 5, state := .err }

/-- R201, R237, R238: an RMPAT of the wrong length is a ShapeError whatever its entries; of the right length, an entry
out of range is an IndexError. -/
def Obligations.RateMatchRaisesShapeThenIndexError : Prop :=
  ∀ s : State,
    (s.len.rmpat ≠ s.cfg.e →
      exec .rateMatch s = .next { s with errKind := .shape, errStg := 6, state := .err }) ∧
    (∀ pat : Nat → Nat, s.len.rmpat = s.cfg.e →
      (∀ i, i < s.cfg.e → (s.mem.entries .rmpat).read i = some (pat i)) →
      (∃ i, i < s.cfg.e ∧ s.cfg.n ≤ pat i) →
      exec .rateMatch s = .next { s with errKind := .index, errStg := 6, state := .err })

/-- R211, R238: a reference of the wrong length is a ShapeError at stage 7. -/
def Obligations.CompareRaisesShapeError : Prop :=
  ∀ s : State, s.len.ref ≠ s.cfg.e →
    exec .compare s = .next { s with errKind := .shape, errStg := 7, state := .err }

/-- R27, R32: a stage that passes its checks and finds the flag of the result register it reads clear stops by name;
no value is supplied (entry 5). -/
def Obligations.ReadingAResultWithoutValueStops : Prop :=
  ∀ s : State,
    (s.len.rnti ≤ s.cfg.p → s.valid.getLsbD 0 = false →
      exec .scramble s = .fault (.resultNotValid .crc)) ∧
    (∀ (pat : Nat → Nat) (info : Nat → Bit), s.len.cilpat = s.cfg.a + s.cfg.p → s.cfg.a ≤ s.len.info →
      (∀ i, i < s.cfg.a + s.cfg.p → (s.mem.entries .cilpat).read i = some (pat i)) →
      (∀ i, i < s.cfg.a + s.cfg.p → pat i < s.cfg.a + s.cfg.p) →
      (∀ i i', i < i' → i' < s.cfg.a + s.cfg.p → pat i ≠ pat i') →
      (∀ i, i < s.cfg.a → (s.mem.bits .info).read i = some (info i)) → s.valid.getLsbD 1 = false →
      exec .interleave s = .fault (.resultNotValid .scr)) ∧
    (∀ rank : Nat → Nat, s.len.ibpat = s.cfg.n →
      (∀ i, i < s.cfg.n → (s.mem.entries .ibpat).read i = some (rank i)) →
      countRange s.cfg.n (fun i => decide (0 < rank i)) = s.cfg.a + s.cfg.p → s.valid.getLsbD 2 = false →
      exec .mapFrozen s = .fault (.resultNotValid .ilv)) ∧
    (s.len.rowsEncgen = s.cfg.n → s.len.colsEncgen = s.cfg.n → s.valid.getLsbD 3 = false →
      exec .transform s = .fault (.resultNotValid .frz)) ∧
    (∀ pat : Nat → Nat, s.len.rmpat = s.cfg.e →
      (∀ i, i < s.cfg.e → (s.mem.entries .rmpat).read i = some (pat i)) →
      (∀ i, i < s.cfg.e → pat i < s.cfg.n) → s.valid.getLsbD 4 = false →
      exec .rateMatch s = .fault (.resultNotValid .enc)) ∧
    (s.len.ref = s.cfg.e → s.valid.getLsbD 5 = false → exec .compare s = .fault (.resultNotValid .rmo))

/-- R35: a stage that passes its checks and would read an operand element holding no value stops by name; no value is
supplied (entries 3 and 26). -/
def Obligations.ReadingAnElementWithoutValueStops : Prop :=
  ∀ (s : State) (i j : Nat),
    (s.len.rowsCrcgen = s.len.info + 1 → s.len.info = s.cfg.a → s.len.rowsCrcgen = s.cfg.k →
      s.len.colsCrcgen = s.cfg.p → i < s.cfg.a → (s.mem.bits .info).read i = none →
      exec .computeCrc s = .fault (.elementNotWritten (.bits .info))) ∧
    (∀ info : Nat → Bit, s.len.rowsCrcgen = s.len.info + 1 → s.len.info = s.cfg.a → s.len.rowsCrcgen = s.cfg.k →
      s.len.colsCrcgen = s.cfg.p → (∀ k, k < s.cfg.a → (s.mem.bits .info).read k = some (info k)) → i < s.cfg.k →
      j < s.cfg.p → (s.mem.matrix .crcgen).read (i, j) = none →
      exec .computeCrc s = .fault (.elementNotWritten (.matrix .crcgen))) ∧
    (s.len.rnti ≤ s.cfg.p → s.valid.getLsbD 0 = true → s.res.crc.length = s.cfg.p → i < s.len.rnti →
      (s.mem.bits .rnti).read i = none → exec .scramble s = .fault (.elementNotWritten (.bits .rnti))) ∧
    (s.len.cilpat = s.cfg.a + s.cfg.p → i < s.cfg.a + s.cfg.p → (s.mem.entries .cilpat).read i = none →
      exec .interleave s = .fault (.elementNotWritten (.entries .cilpat))) ∧
    (∀ pat : Nat → Nat, s.len.cilpat = s.cfg.a + s.cfg.p → s.cfg.a ≤ s.len.info →
      (∀ k, k < s.cfg.a + s.cfg.p → (s.mem.entries .cilpat).read k = some (pat k)) →
      (∀ k, k < s.cfg.a + s.cfg.p → pat k < s.cfg.a + s.cfg.p) →
      (∀ k k', k < k' → k' < s.cfg.a + s.cfg.p → pat k ≠ pat k') → i < s.cfg.a →
      (s.mem.bits .info).read i = none → exec .interleave s = .fault (.elementNotWritten (.bits .info))) ∧
    (s.len.ibpat = s.cfg.n → i < s.cfg.n → (s.mem.entries .ibpat).read i = none →
      exec .mapFrozen s = .fault (.elementNotWritten (.entries .ibpat))) ∧
    (s.len.rowsEncgen = s.cfg.n → s.len.colsEncgen = s.cfg.n → s.valid.getLsbD 3 = true →
      s.res.frz.length = s.cfg.n → i < s.cfg.n → j < s.cfg.n → (s.mem.matrix .encgen).read (i, j) = none →
      exec .transform s = .fault (.elementNotWritten (.matrix .encgen))) ∧
    (s.len.rmpat = s.cfg.e → i < s.cfg.e → (s.mem.entries .rmpat).read i = none →
      exec .rateMatch s = .fault (.elementNotWritten (.entries .rmpat))) ∧
    (s.len.ref = s.cfg.e → s.valid.getLsbD 5 = true → s.res.rmo.length = s.cfg.e → i < s.cfg.e →
      (s.mem.bits .ref).read i = none → exec .compare s = .fault (.elementNotWritten (.bits .ref)))

/-- R64, R111, R120, entries 5 and 24: a stage that passes its checks, finds the flag set and finds a result register of
another length than the stage before guarantees stops by name, and so does stage 3 when fewer than A elements of INFO
exist. No run reaches such a state. -/
def Obligations.ReadingAWrongLengthStops : Prop :=
  ∀ s : State,
    (s.len.rnti ≤ s.cfg.p → s.valid.getLsbD 0 = true → s.res.crc.length ≠ s.cfg.p →
      exec .scramble s = .fault (.resultLength .crc)) ∧
    (∀ pat : Nat → Nat, s.len.cilpat = s.cfg.a + s.cfg.p →
      (∀ i, i < s.cfg.a + s.cfg.p → (s.mem.entries .cilpat).read i = some (pat i)) →
      (∀ i, i < s.cfg.a + s.cfg.p → pat i < s.cfg.a + s.cfg.p) →
      (∀ i i', i < i' → i' < s.cfg.a + s.cfg.p → pat i ≠ pat i') →
      (s.len.info < s.cfg.a → exec .interleave s = .fault (.indexBeyondLength (.bits .info))) ∧
      (∀ info : Nat → Bit, s.cfg.a ≤ s.len.info →
        (∀ i, i < s.cfg.a → (s.mem.bits .info).read i = some (info i)) → s.valid.getLsbD 1 = true →
        s.res.scr.length ≠ s.cfg.p → exec .interleave s = .fault (.resultLength .scr))) ∧
    (∀ rank : Nat → Nat, s.len.ibpat = s.cfg.n →
      (∀ i, i < s.cfg.n → (s.mem.entries .ibpat).read i = some (rank i)) →
      countRange s.cfg.n (fun i => decide (0 < rank i)) = s.cfg.a + s.cfg.p → s.valid.getLsbD 2 = true →
      s.res.ilv.length ≠ s.cfg.a + s.cfg.p → exec .mapFrozen s = .fault (.resultLength .ilv)) ∧
    (s.len.rowsEncgen = s.cfg.n → s.len.colsEncgen = s.cfg.n → s.valid.getLsbD 3 = true →
      s.res.frz.length ≠ s.cfg.n → exec .transform s = .fault (.resultLength .frz)) ∧
    (∀ pat : Nat → Nat, s.len.rmpat = s.cfg.e →
      (∀ i, i < s.cfg.e → (s.mem.entries .rmpat).read i = some (pat i)) →
      (∀ i, i < s.cfg.e → pat i < s.cfg.n) → s.valid.getLsbD 4 = true → s.res.enc.length ≠ s.cfg.n →
      exec .rateMatch s = .fault (.resultLength .enc)) ∧
    (s.len.ref = s.cfg.e → s.valid.getLsbD 5 = true → s.res.rmo.length ≠ s.cfg.e →
      exec .compare s = .fault (.resultLength .rmo))

/-! ### Frames -/

/-- R25, R66, R115: what no stage operation changes when it gives a next state. Only the result register that stage
owns, its flag, and the sequencer's registers may change; of those, an aborting stage changes none but STATE and the
error record, and a completing one leaves the error record. -/
def Obligations.StagesWriteOnlyTheirOwnResult : Prop :=
  ∀ (i : Instr) (s t : State), exec i s = .next t →
    sameHostSide s t ∧ sameElements s t ∧
    (∀ r : BitReg, r.writer ≠ i → t.res.bits r = s.res.bits r) ∧ (i ≠ .compare → t.res.mmc = s.res.mmc) ∧
    (∀ j : Instr, j ≠ i → t.valid.getLsbD (j.number.val - 1) = s.valid.getLsbD (j.number.val - 1)) ∧
    ((t.errKind = s.errKind ∧ t.errStg = s.errStg) ∨
      (t.res = s.res ∧ t.valid = s.valid ∧ t.stg = s.stg))

/-- R113, R114, R236, R238: a stage operation that gives a next state either completes (its flag is set, STG moves to
the next stage, or after stage 7 to 0 with STATE DONE, and no error is recorded) or aborts (ERRKIND and ERRSTG record
the error, STATE is ERR, and nothing else changes). -/
def Obligations.StageCompletesOrAborts : Prop :=
  ∀ (i : Instr) (s t : State), exec i s = .next t →
    (t.valid.getLsbD (i.number.val - 1) = true ∧ t.errKind = s.errKind ∧ t.errStg = s.errStg ∧
      (i ≠ .compare → t.state = s.state ∧ t.stg.val = i.number.val + 1) ∧
      (i = .compare → t.state = .done ∧ t.stg = 0)) ∨
    (∃ e : StageError, t = { s with errKind := e.kind, errStg := i.number, state := .err })

/-! ### Invariants and whole-machine rules -/

/-- The state after reset meets the invariant. That nothing stands behind its clear flags is about the model's
placeholders, which are its own choice and no rule of the spec (entry 4). -/
def Obligations.ResetMeetsTheInvariant : Prop := State.reset.Inv

/-- The invariant of every state a host can bring about is kept by every step, of the host or of the sequencer. Its
part about contents behind clear flags is about the model's placeholders (entry 4). -/
def Obligations.EveryStepKeepsTheInvariant : Prop :=
  ∀ s t : State, s.Inv → step s = .next t → t.Inv

/-- R248, R112, R113: a run that the host could start never stops on a fault: each of its steps gives a next state,
whatever the operands, while the host does nothing and while it polls (R241, the action `wait`, entry 6). -/
def Obligations.ARunNeverStops : Prop :=
  ∀ s : State, s.Inv → (∀ f, step s ≠ .fault f) ∧
    (s.state = .busy → (s.host = [] ∨ ∃ rest, s.host = .wait :: rest) → ∃ t, step s = .next t)

/-- R29: the transitions of STATE in one step, and no other: none; to IDLE only by reset; to BUSY only by the start
command from IDLE, DONE or ERR; from BUSY to DONE at stage 7; from BUSY to ERR with an error recorded at the stage
that was running. -/
def Obligations.RunStateTransitions : Prop :=
  ∀ s t : State, s.Inv → step s = .next t →
    t.state = s.state ∨
    (t.state = .idle ∧ ∃ rest, s.host = .reset :: rest) ∨
    (t.state = .busy ∧ s.state ≠ .busy ∧ ∃ v rest, s.host = .writeCsr 15 v :: rest ∧ v % 2 = 1) ∨
    (t.state = .done ∧ s.state = .busy ∧ s.stg = 7 ∧ t.stg = 0 ∧ t.valid = 0b1111111#7) ∨
    (t.state = .err ∧ s.state = .busy ∧ t.errKind ≠ .none ∧ t.errStg = s.stg ∧ t.stg = s.stg)

/-- R118, R28: the stage counter, in one step: it stays, or goes to 1 by the start command, or to 0 by reset, or from k
to k+1 (from 7 to 0) when stage k succeeds. There is no branch. -/
def Obligations.StageCounterGoesStraight : Prop :=
  ∀ s t : State, s.Inv → step s = .next t →
    t.stg = s.stg ∨
    (t.stg = 0 ∧ ∃ rest, s.host = .reset :: rest) ∨
    (t.stg = 1 ∧ s.state ≠ .busy ∧ ∃ v rest, s.host = .writeCsr 15 v :: rest ∧ v % 2 = 1) ∨
    (s.state = .busy ∧ t.stg.val = (s.stg.val + 1) % 8 ∧ s.valid.getLsbD (s.stg.val - 1) = false ∧
      t.valid.getLsbD (s.stg.val - 1) = true)

/-- R120: in a run that has come this far without error, the results have the lengths the configuration gives them, also
in the state in which the run ends, whatever the host does meanwhile. -/
def Obligations.ResultsHaveTheirDeclaredLengths : Prop :=
  ∀ s t : State, s.Inv → s.state = .busy → step s = .next t →
    (t.valid.getLsbD 0 = true → t.res.crc.length = t.cfg.p) ∧
    (t.valid.getLsbD 1 = true → t.res.scr.length = t.cfg.p) ∧
    (t.valid.getLsbD 2 = true → t.res.ilv.length = t.cfg.a + t.cfg.p) ∧
    (t.valid.getLsbD 3 = true → t.res.frz.length = t.cfg.n) ∧
    (t.valid.getLsbD 4 = true → t.res.enc.length = t.cfg.n) ∧
    (t.valid.getLsbD 5 = true → t.res.rmo.length = t.cfg.e)

/-! ### The run as one function -/

/-- R117: from any state that is not BUSY and in which the host has written everything, the start command followed by
seven steps ends the run, showing exactly what the run function returns: DONE with RateMatchedBits and MismatchCount, or
ERR with the kind and the stage of the first error. The order of host and sequencer is entry 6, the
mapper's position order D29, U3, entry 12. -/
def Obligations.RunComputesThePipelineFunction : Prop :=
  ∀ (s : State) (x : RunInput), s.state ≠ .busy → s.written = BitVec.allOnes 15 → s.runInput = some x →
    ∃ t, runSteps 8 { s with host := startAndWait } = .next t ∧ showsResult t (pipelineRun x) ∧
      t.runInput = some x ∧ t.host = []

/-- R121: every run in progress ends, after at most seven steps of the sequencer, whether the host does nothing or polls
for any length of time (R241, the action `wait`, entry 6). -/
def Obligations.EveryRunEnds : Prop :=
  ∀ s : State, s.Inv → s.state = .busy → (∀ a ∈ s.host, a = .wait) →
    ∃ k t, 1 ≤ k ∧ k ≤ 7 ∧ runSteps k s = .next t ∧ (t.state = .done ∨ t.state = .err)

/-- R33, R119: the outcome of a run depends on its nine arguments and on nothing else: not on what earlier runs left in
the result registers, nor on any other difference between the states. Result registers without a value are compared
by their placeholders (entry 4). -/
def Obligations.RunDependsOnItsInputsOnly : Prop :=
  ∀ (s s' : State) (x : RunInput), s.state ≠ .busy → s'.state ≠ .busy →
    s.written = BitVec.allOnes 15 → s'.written = BitVec.allOnes 15 →
    s.runInput = some x → s'.runInput = some x →
    ∃ t t', runSteps 8 { s with host := startAndWait } = .next t ∧
      runSteps 8 { s' with host := startAndWait } = .next t' ∧ sameSequencer t t'

/-- R122: RateMatchedBits does not depend on ReferenceBits: when two runs that differ only there both complete, they give
the same bits, and whenever one of them fails before stage 7 the other fails in the same way. -/
def Obligations.RateMatchedBitsIgnoreTheReference : Prop :=
  ∀ (x : RunInput) (ref : List Bit),
    (∀ r m r' m', pipelineRun x = .ok (r, m) → pipelineRun { x with ref := ref } = .ok (r', m') → r' = r) ∧
    (∀ e k, pipelineRun x = .error (e, k) → k ≠ 7 → pipelineRun { x with ref := ref } = .error (e, k))

/-- R23, R234: the run function returns a result exactly when the input is consistent: every departure raises an
error. -/
def Obligations.RunCompletesExactlyOnConsistentInput : Prop :=
  ∀ x : RunInput, (∃ r m, pipelineRun x = .ok (r, m)) ↔ x.wellFormed = true

/-- R235, R237: a run that fails at stage k has not looked at an operand of a later stage: any input that agrees on the
operands of stages 1 to k fails in the same way. -/
def Obligations.AnErrorDependsOnNoLaterOperand : Prop :=
  ∀ (x y : RunInput) (e : StageError) (k : Fin 8), pipelineRun x = .error (e, k) → agreeUpTo k x y →
    pipelineRun y = .error (e, k)

/-- R230, R232, R233, R237: an IndexError can only come from stage 3 or stage 6, and then that stage's pattern has the
length the configuration gives it. -/
def Obligations.IndexErrorOnlyFromPatterns : Prop :=
  ∀ (x : RunInput) (k : Fin 8), pipelineRun x = .error (.index, k) →
    (k = 3 ∧ x.cilpat.length = x.cfg.a + x.cfg.p ∧
      ((∃ v ∈ x.cilpat, x.cfg.a + x.cfg.p ≤ v) ∨ ¬ x.cilpat.Nodup)) ∨
    (k = 6 ∧ x.rmpat.length = x.cfg.e ∧ ∃ v ∈ x.rmpat, x.cfg.n ≤ v)

/-- R8, D20: in an instance whose widths satisfy R8, every index a completed run used fits IDXW and the mismatch count
fits CNTW; the count never exceeds E. -/
def Obligations.CompletedRunFitsAdmittedWidths : Prop :=
  ∀ (x : RunInput) (q : InstanceParams) (r : List Bit) (m : Nat), q.Admits x.cfg → pipelineRun x = .ok (r, m) →
    m ≤ x.cfg.e ∧ m < 2 ^ q.cntw ∧ (∀ v ∈ x.cilpat, v < 2 ^ q.idxw) ∧ (∀ v ∈ x.rmpat, v < 2 ^ q.idxw)

/-! ### Laws of the stage functions -/

/-- R12, R144, R189: `gf2_vecmat` has `n` bits, also for `n = 0`; bit `j` of `gf2_vecmat` is the XOR over `i` of `v[i] AND M[i][j]`, which is the parity of the integer
sum of those terms. -/
def Obligations.VecmatIsParityOfTheSum : Prop :=
  ∀ (n : Nat) (v : List Bit) (rows : List (List Bit)), v.length = rows.length →
    (gf2Vecmat n v rows).length = n ∧
    ∀ j, j < n →
      (gf2Vecmat n v rows)[j]? =
        some (xorRange v.length fun i => v.getD i false && (rows.getD i []).getD j false) ∧
      (gf2Vecmat n v rows)[j]? =
        some (decide (countRange v.length (fun i => v.getD i false && (rows.getD i []).getD j false) % 2 = 1))

/-- R190(b): the transform is linear over GF(2). -/
def Obligations.TransformIsLinear : Prop :=
  ∀ (a b : List Bit) (rows : List (List Bit)), a.length = b.length →
    transformBits (xorBits a b) rows = xorBits (transformBits a rows) (transformBits b rows)

/-- R190(c), (d): with the identity matrix the transform is the identity, and a unit vector selects its row. -/
def Obligations.TransformIdentityAndUnitVectors : Prop :=
  (∀ f : List Bit,
    transformBits f ((List.range f.length).map fun i => (List.range f.length).map fun j => decide (i = j)) = f) ∧
  (∀ (rows : List (List Bit)) (i : Nat) (h : i < rows.length), (∀ row ∈ rows, row.length = rows.length) →
    transformBits ((List.range rows.length).map fun k => decide (k = i)) rows = rows[i])

/-- R146(c): the parity stage is affine, not linear: the sum of two blocks has the sum of their parities and row 0. -/
def Obligations.ComputeCrcIsAffine : Prop :=
  ∀ (p : Nat) (a b row0 : List Bit) (rows : List (List Bit)), a.length = b.length → row0.length = p →
    crcOf p (xorBits a b) (row0 :: rows) =
      xorBits (xorBits (crcOf p a (row0 :: rows)) (crcOf p b (row0 :: rows))) row0

/-- R145: the parity of the all-zero block is row 0 of the matrix. -/
def Obligations.ParityOfZeroBlockIsRowZero : Prop :=
  ∀ (a p : Nat) (row0 : List Bit) (rows : List (List Bit)), row0.length = p →
    crcOf p (zeros a) (row0 :: rows) = row0

/-- R154: scrambling twice with the same identifier restores the input, and an all-zero identifier changes nothing. -/
def Obligations.ScrambleIsAnInvolution : Prop :=
  ∀ c r : List Bit, r.length ≤ c.length →
    scrambleBits (scrambleBits c r) r = c ∧ scrambleBits c (zeros r.length) = c

/-- R166: interleaving by a permutation and then by its inverse gives the sequence back. -/
def Obligations.InterleaveRoundTrip : Prop :=
  ∀ (x : List Bit) (p q : List Index), isPermutationOf p x.length = true → q.length = x.length →
    (∀ i, i < x.length → q.getD (p.getD i 0) 0 = i) → gather (gather x p) q = x

/-- R165: interleaving moves bits and does not change them: the number of ones stays. -/
def Obligations.InterleaveKeepsTheNumberOfOnes : Prop :=
  ∀ (x : List Bit) (p : List Index), isPermutationOf p x.length = true →
    (gather x p).count true = x.count true

/-- R176: the bits at the information positions of a mapped vector, in position order, are the bits that went in; and
mapping the extracted bits gives a vector back exactly when it is zero at every frozen position. It holds for every
pattern because of the position order, which is a choice (R174, D29, U3, entry 12). -/
def Obligations.FrozenMappingIsReversible : Prop :=
  (∀ (ranks : List Rank) (bits : List Bit), positiveCount ranks = bits.length →
    extractInfo (frozenOf ranks bits) ranks = bits) ∧
  (∀ (ranks : List Rank) (f : List Bit), f.length = ranks.length →
    (frozenOf ranks (extractInfo f ranks) = f ↔ ∀ i, i < ranks.length → ranks.getD i 0 = 0 → f.getD i false = false))

/-- R172, R177: only which ranks are positive matters; a frozen position is 0; the number of ones stays. That
only positivity matters is the position order, which is a choice (R174, D29, U3, entry 12). -/
def Obligations.OnlyPositivityOfRanksMatters : Prop :=
  ∀ (ranks ranks' : List Rank) (bits : List Bit), ranks.length = ranks'.length →
    (∀ i, i < ranks.length → (0 < ranks.getD i 0 ↔ 0 < ranks'.getD i 0)) →
    frozenOf ranks bits = frozenOf ranks' bits ∧
    (∀ i, i < ranks.length → ranks.getD i 0 = 0 → (frozenOf ranks bits)[i]? = some false) ∧
    (positiveCount ranks = bits.length → (frozenOf ranks bits).count true = bits.count true)

/-- R205: the identity pattern gives the codeword back, and rate matching commutes with XOR. -/
def Obligations.RateMatchIdentityAndXor : Prop :=
  (∀ c : List Bit, gather c (List.range c.length) = c) ∧
  (∀ (a b : List Bit) (p : List Index), a.length = b.length → (∀ v ∈ p, v < a.length) →
    gather (xorBits a b) p = xorBits (gather a p) (gather b p))

/-- R214: the mismatch count is a distance: symmetric, 0 exactly for equal vectors, with the triangle inequality, and the
number of ones of the XOR; against the complement it is the length. -/
def Obligations.MismatchCountIsADistance : Prop :=
  (∀ a b : List Bit, mismatchCount a b = mismatchCount b a) ∧
  (∀ a b : List Bit, a.length = b.length → (mismatchCount a b = 0 ↔ a = b)) ∧
  (∀ a b c : List Bit, a.length = b.length → b.length = c.length →
    mismatchCount a c ≤ mismatchCount a b + mismatchCount b c) ∧
  (∀ a b : List Bit, a.length = b.length → mismatchCount a b = mismatchCount (xorBits a b) (zeros a.length)) ∧
  (∀ a : List Bit, mismatchCount a (a.map not) = a.length)

/-! ### The host's reads of operand storage -/

/-- R32, R60, R63, R65: what the host reads of each operand space, in every state: the element last written, below the
length registers of that space as the host reads them; no value at or beyond them, for an element never written (R35),
and, as the model's choice, while a length register holds no value (entry 18). -/
def Obligations.HostReadsElementsBelowTheLength : Prop :=
  ∀ (s : State) (i j : Nat),
    hostReadBit s .info i =
      (hostReadCsr s 5).bind (fun n => if i < n then (s.mem.bits .info).read i else none) ∧
    hostReadMatrix s .crcgen i j =
      (hostReadCsr s 6).bind (fun r => (hostReadCsr s 7).bind fun c =>
        if i < r ∧ j < c then (s.mem.matrix .crcgen).read (i, j) else none) ∧
    hostReadBit s .rnti i =
      (hostReadCsr s 8).bind (fun n => if i < n then (s.mem.bits .rnti).read i else none) ∧
    hostReadEntry s .cilpat i =
      (hostReadCsr s 9).bind (fun n => if i < n then (s.mem.entries .cilpat).read i else none) ∧
    hostReadEntry s .ibpat i =
      (hostReadCsr s 10).bind (fun n => if i < n then (s.mem.entries .ibpat).read i else none) ∧
    hostReadMatrix s .encgen i j =
      (hostReadCsr s 11).bind (fun r => (hostReadCsr s 12).bind fun c =>
        if i < r ∧ j < c then (s.mem.matrix .encgen).read (i, j) else none) ∧
    hostReadEntry s .rmpat i =
      (hostReadCsr s 13).bind (fun n => if i < n then (s.mem.entries .rmpat).read i else none) ∧
    hostReadBit s .ref i =
      (hostReadCsr s 14).bind (fun n => if i < n then (s.mem.bits .ref).read i else none)
end

