-- ==== Sys2Proof/Laws/Cells.lean ====
section
/-! SUPPORT. Operand storage: a read after a write, and the canonical form kept by every write (spec/20_memory.md
R65). -/

namespace Sys2Proof.Machine

section Generic
variable {κ α : Type} [DecidableEq κ] {lt : κ → κ → Bool}

/-- The element written is the element read. -/
@[simp] theorem Cells.read_write_same (m : Cells κ α) (k : κ) (v : α) :
    Cells.read (Cells.write lt m k v) k = some v := by
  induction m with
  | nil => simp [Cells.write, Cells.read]
  | cons c rest ih =>
    unfold Cells.write
    split
    · simp [Cells.read]
    · split
      · simp [Cells.read]
      · next h _ => simp [Cells.read, h, ih]

/-- Every other element reads as before. -/
theorem Cells.read_write_other (m : Cells κ α) {k k' : κ} (v : α) (h : k' ≠ k) :
    Cells.read (Cells.write lt m k v) k' = Cells.read m k' := by
  induction m with
  | nil => simp [Cells.write, Cells.read, Ne.symm h]
  | cons c rest ih =>
    unfold Cells.write
    split
    · next hc => subst hc; simp [Cells.read, Ne.symm h]
    · split
      · simp [Cells.read, Ne.symm h]
      · simp [Cells.read, ih]

/-- The keys of a store after a write are the key written and the keys before. -/
theorem Cells.mem_write {m : Cells κ α} {k : κ} {v : α} {c : κ × α} (h : c ∈ Cells.write lt m k v) :
    c = (k, v) ∨ c ∈ m := by
  induction m with
  | nil => simpa [Cells.write] using h
  | cons d rest ih =>
    unfold Cells.write at h
    split at h
    · rcases List.mem_cons.mp h with h | h
      · exact .inl h
      · exact .inr (List.mem_cons_of_mem _ h)
    · split at h
      · exact (List.mem_cons.mp h).imp id id
      · rcases List.mem_cons.mp h with h | h
        · exact .inr (h ▸ List.mem_cons_self)
        · exact (ih h).imp id (List.mem_cons_of_mem _)

/-- A write keeps the canonical form, for an order in which unequal keys compare. -/
theorem Cells.wf_write (trans : ∀ a b c, lt a b = true → lt b c = true → lt a c = true)
    (total : ∀ a b, a = b ∨ lt a b = true ∨ lt b a = true) {m : Cells κ α} (k : κ) (v : α)
    (h : Cells.wf lt m = true) : Cells.wf lt (Cells.write lt m k v) = true := by
  simp only [Cells.wf, decide_eq_true_eq] at h ⊢
  induction m with
  | nil => simp [Cells.write]
  | cons c rest ih =>
    obtain ⟨hc, hr⟩ := List.pairwise_cons.mp h
    unfold Cells.write
    split
    · next hk => subst hk; exact List.pairwise_cons.mpr ⟨hc, hr⟩
    · next hk =>
      split
      · next hlt =>
        refine List.pairwise_cons.mpr ⟨fun d hd => ?_, h⟩
        rcases List.mem_cons.mp hd with rfl | hd
        · exact hlt
        · exact trans _ _ _ hlt (hc d hd)
      · next hlt =>
        refine List.pairwise_cons.mpr ⟨fun d hd => ?_, ih hr⟩
        rcases Cells.mem_write hd with rfl | hd
        · rcases total c.1 k with h' | h' | h'
          · exact absurd h' hk
          · exact h'
          · exact absurd h' hlt
        · exact hc d hd

end Generic

theorem indexLt_trans (a b c : Nat) (h : indexLt a b = true) (h' : indexLt b c = true) : indexLt a c = true := by
  simp only [indexLt, decide_eq_true_eq] at *; omega

theorem indexLt_total (a b : Nat) : a = b ∨ indexLt a b = true ∨ indexLt b a = true := by
  simp only [indexLt, decide_eq_true_eq]; omega

theorem pairLt_trans (a b c : Nat × Nat) (h : pairLt a b = true) (h' : pairLt b c = true) :
    pairLt a c = true := by
  simp only [pairLt, Bool.or_eq_true, Bool.and_eq_true, decide_eq_true_eq] at *; omega

theorem pairLt_total (a b : Nat × Nat) : a = b ∨ pairLt a b = true ∨ pairLt b a = true := by
  simp only [pairLt, Bool.or_eq_true, Bool.and_eq_true, decide_eq_true_eq, Prod.ext_iff]; omega

/-- Storage in which no element holds a value is in canonical form. -/
theorem Memory.wf_empty : Memory.empty.wf = true := rfl

/-- The storage of the state after reset is in canonical form. -/
theorem State.reset_mem_wf : State.reset.mem.wf = true := rfl

section Writes
variable {m : Memory} (h : m.wf = true)
include h

theorem Memory.wf_writeBit (sp : BitSpace) (i : Nat) (b : Bit) : (m.writeBit sp i b).wf = true := by
  simp only [Memory.wf, Bool.and_eq_true] at h ⊢
  cases sp <;> simp only [Memory.writeBit, h, true_and, and_true]
  all_goals exact Cells.wf_write indexLt_trans indexLt_total _ _ (by simp only [h])

theorem Memory.wf_writeEntry (sp : PatSpace) (i v : Nat) : (m.writeEntry sp i v).wf = true := by
  simp only [Memory.wf, Bool.and_eq_true] at h ⊢
  cases sp <;> simp only [Memory.writeEntry, h, true_and, and_true]
  all_goals exact Cells.wf_write indexLt_trans indexLt_total _ _ (by simp only [h])

theorem Memory.wf_writeMatrix (sp : MatSpace) (i j : Nat) (b : Bit) : (m.writeMatrix sp i j b).wf = true := by
  simp only [Memory.wf, Bool.and_eq_true] at h ⊢
  cases sp <;> simp only [Memory.writeMatrix, h, true_and, and_true]
  all_goals exact Cells.wf_write pairLt_trans pairLt_total _ _ (by simp only [h])

end Writes

section Reads
variable (m : Memory)

/-- Reading a bit-vector element after writing one. -/
theorem Memory.read_writeBit (sp sp' : BitSpace) (i i' : Nat) (b : Bit) :
    Cells.read ((m.writeBit sp i b).bits sp') i' = if sp' = sp ∧ i' = i then some b else Cells.read (m.bits sp') i' := by
  by_cases hi : i' = i
  · subst hi; cases sp <;> cases sp' <;> simp [Memory.writeBit, Memory.bits]
  · cases sp <;> cases sp' <;> simp [Memory.writeBit, Memory.bits, hi, Cells.read_write_other]

/-- Reading a pattern entry after writing one. -/
theorem Memory.read_writeEntry (sp sp' : PatSpace) (i i' v : Nat) :
    Cells.read ((m.writeEntry sp i v).entries sp') i' =
      if sp' = sp ∧ i' = i then some v else Cells.read (m.entries sp') i' := by
  by_cases hi : i' = i
  · subst hi; cases sp <;> cases sp' <;> simp [Memory.writeEntry, Memory.entries]
  · cases sp <;> cases sp' <;> simp [Memory.writeEntry, Memory.entries, hi, Cells.read_write_other]

/-- Reading a matrix element after writing one. -/
theorem Memory.read_writeMatrix (sp sp' : MatSpace) (k k' : Nat × Nat) (b : Bit) :
    Cells.read ((m.writeMatrix sp k.1 k.2 b).matrix sp') k' =
      if sp' = sp ∧ k' = k then some b else Cells.read (m.matrix sp') k' := by
  by_cases hk : k' = k
  · subst hk; cases sp <;> cases sp' <;> simp [Memory.writeMatrix, Memory.matrix]
  · cases sp <;> cases sp' <;> simp [Memory.writeMatrix, Memory.matrix, hk, Cells.read_write_other]

@[simp] theorem Memory.writeBit_entries (sp : BitSpace) (i : Nat) (b : Bit) :
    (m.writeBit sp i b).entries = m.entries := by funext sp'; cases sp <;> cases sp' <;> rfl

@[simp] theorem Memory.writeBit_matrix (sp : BitSpace) (i : Nat) (b : Bit) :
    (m.writeBit sp i b).matrix = m.matrix := by funext sp'; cases sp <;> cases sp' <;> rfl

@[simp] theorem Memory.writeEntry_bits (sp : PatSpace) (i v : Nat) :
    (m.writeEntry sp i v).bits = m.bits := by funext sp'; cases sp <;> cases sp' <;> rfl

@[simp] theorem Memory.writeEntry_matrix (sp : PatSpace) (i v : Nat) :
    (m.writeEntry sp i v).matrix = m.matrix := by funext sp'; cases sp <;> cases sp' <;> rfl

@[simp] theorem Memory.writeMatrix_bits (sp : MatSpace) (i j : Nat) (b : Bit) :
    (m.writeMatrix sp i j b).bits = m.bits := by funext sp'; cases sp <;> cases sp' <;> rfl

@[simp] theorem Memory.writeMatrix_entries (sp : MatSpace) (i j : Nat) (b : Bit) :
    (m.writeMatrix sp i j b).entries = m.entries := by funext sp'; cases sp <;> cases sp' <;> rfl

end Reads

end Sys2Proof.Machine
end

