-- ==== Sys2Proof/Laws/Flags.lean ====
section
/-! SUPPORT. The valid flags (spec/10_state.md R27), and the fetch against the stage numbers (spec/30_encoding.md
R90). -/

namespace Sys2Proof.Machine

/-- Setting a flag sets that flag and no other. -/
theorem hasFlag_setFlag (v : BitVec 7) (i j : Instr) :
    hasFlag (setFlag v i) j = (decide (j = i) || hasFlag v j) := by
  cases i <;> cases j <;> simp [hasFlag, setFlag, flagBit, Instr.number]

/-- Below stage `k`, the flags of the stages numbered less than `k` are set. -/
theorem hasFlag_flagsBelow (k : Fin 8) (i : Instr) : hasFlag (flagsBelow k) i = decide (i.number < k) := by
  revert k; cases i <;> decide

theorem hasFlag_zero (i : Instr) : hasFlag 0#7 i = false := by simp [hasFlag]

/-- After stage `k` succeeds the flags are those below the next stage, and after stage 7 all seven. -/
theorem setFlag_flagsBelow (i : Instr) :
    setFlag (flagsBelow i.number) i =
      if i = .compare then BitVec.allOnes 7 else flagsBelow (i.number + 1) := by cases i <;> decide

/-- The program store holds at entry `k` the code of stage number `k` (R90, R92). -/
theorem decode_rom (k : Fin 8) (i : Instr) : decode (rom k) = .stage i ↔ i.number = k := by
  revert k; cases i <;> decide

/-- Every stage number but 0 is the number of a stage (R93). -/
theorem exists_number_eq {k : Fin 8} (h : k ≠ 0) : ∃ i : Instr, i.number = k := by
  match k, h with
  | 1, _ => exact ⟨.computeCrc, rfl⟩
  | 2, _ => exact ⟨.scramble, rfl⟩
  | 3, _ => exact ⟨.interleave, rfl⟩
  | 4, _ => exact ⟨.mapFrozen, rfl⟩
  | 5, _ => exact ⟨.transform, rfl⟩
  | 6, _ => exact ⟨.rateMatch, rfl⟩
  | 7, _ => exact ⟨.compare, rfl⟩

end Sys2Proof.Machine
end

