-- ==== Sys2Proof/Laws/State.lean ====
section
/-! SUPPORT. One lemma per field for each named update of the state. -/

namespace Sys2Proof.Machine

section Start
variable (s : State)

@[simp] theorem startRun_cfg : (startRun s).cfg = s.cfg := rfl
@[simp] theorem startRun_len : (startRun s).len = s.len := rfl
@[simp] theorem startRun_written : (startRun s).written = s.written := rfl
@[simp] theorem startRun_mem : (startRun s).mem = s.mem := rfl
@[simp] theorem startRun_res : (startRun s).res = Results.noValue := rfl
@[simp] theorem startRun_valid : (startRun s).valid = 0#7 := rfl
@[simp] theorem startRun_state : (startRun s).state = .busy := rfl
@[simp] theorem startRun_stg : (startRun s).stg = 1 := rfl
@[simp] theorem startRun_errKind : (startRun s).errKind = .none := rfl
@[simp] theorem startRun_errStg : (startRun s).errStg = 0 := rfl
@[simp] theorem startRun_host : (startRun s).host = s.host := rfl

end Start

section Abort
variable (e : StageError) (i : Instr) (s : State)

@[simp] theorem abort_cfg : (abort e i s).cfg = s.cfg := rfl
@[simp] theorem abort_len : (abort e i s).len = s.len := rfl
@[simp] theorem abort_written : (abort e i s).written = s.written := rfl
@[simp] theorem abort_mem : (abort e i s).mem = s.mem := rfl
@[simp] theorem abort_res : (abort e i s).res = s.res := rfl
@[simp] theorem abort_valid : (abort e i s).valid = s.valid := rfl
@[simp] theorem abort_state : (abort e i s).state = .err := rfl
@[simp] theorem abort_stg : (abort e i s).stg = s.stg := rfl
@[simp] theorem abort_errKind : (abort e i s).errKind = e.kind := rfl
@[simp] theorem abort_errStg : (abort e i s).errStg = i.number := rfl
@[simp] theorem abort_host : (abort e i s).host = s.host := rfl

end Abort

section Finish
variable (i : Instr) (r : Results) (s : State)

@[simp] theorem finishStage_cfg : (finishStage i r s).cfg = s.cfg := by cases i <;> rfl
@[simp] theorem finishStage_len : (finishStage i r s).len = s.len := by cases i <;> rfl
@[simp] theorem finishStage_written : (finishStage i r s).written = s.written := by cases i <;> rfl
@[simp] theorem finishStage_mem : (finishStage i r s).mem = s.mem := by cases i <;> rfl
@[simp] theorem finishStage_res : (finishStage i r s).res = r := by cases i <;> rfl
@[simp] theorem finishStage_valid : (finishStage i r s).valid = setFlag s.valid i := by cases i <;> rfl
@[simp] theorem finishStage_errKind : (finishStage i r s).errKind = s.errKind := by cases i <;> rfl
@[simp] theorem finishStage_errStg : (finishStage i r s).errStg = s.errStg := by cases i <;> rfl
@[simp] theorem finishStage_host : (finishStage i r s).host = s.host := by cases i <;> rfl

/-- After stage 7 the run is done; after any other stage STATE stays (R113, R114). -/
theorem finishStage_state :
    (finishStage i r s).state = if i = .compare then .done else s.state := by cases i <;> rfl

/-- STG moves to the next stage, from 7 to 0 (R28). -/
theorem finishStage_stg : (finishStage i r s).stg = i.number + 1 := by cases i <;> rfl

end Finish

section Reset
variable (s : State)

@[simp] theorem applyReset_cfg : (applyReset s).cfg = State.reset.cfg := rfl
@[simp] theorem applyReset_len : (applyReset s).len = State.reset.len := rfl
@[simp] theorem applyReset_written : (applyReset s).written = 0#15 := rfl
@[simp] theorem applyReset_mem : (applyReset s).mem = Memory.empty := rfl
@[simp] theorem applyReset_res : (applyReset s).res = Results.noValue := rfl
@[simp] theorem applyReset_valid : (applyReset s).valid = 0#7 := rfl
@[simp] theorem applyReset_state : (applyReset s).state = .idle := rfl
@[simp] theorem applyReset_stg : (applyReset s).stg = 0 := rfl
@[simp] theorem applyReset_errKind : (applyReset s).errKind = .none := rfl
@[simp] theorem applyReset_errStg : (applyReset s).errStg = 0 := rfl
@[simp] theorem applyReset_host : (applyReset s).host = s.host := rfl

end Reset

section Assign
variable (s : State) (n v : Nat)

/-- An assignment to a register changes no field but the configuration and the lengths. -/
theorem csrAssign_eq :
    csrAssign s n v = { s with cfg := (csrAssign s n v).cfg, len := (csrAssign s n v).len } := by
  unfold csrAssign; split <;> rfl

@[simp] theorem csrAssign_written : (csrAssign s n v).written = s.written := by rw [csrAssign_eq]
@[simp] theorem csrAssign_mem : (csrAssign s n v).mem = s.mem := by rw [csrAssign_eq]
@[simp] theorem csrAssign_res : (csrAssign s n v).res = s.res := by rw [csrAssign_eq]
@[simp] theorem csrAssign_valid : (csrAssign s n v).valid = s.valid := by rw [csrAssign_eq]
@[simp] theorem csrAssign_state : (csrAssign s n v).state = s.state := by rw [csrAssign_eq]
@[simp] theorem csrAssign_stg : (csrAssign s n v).stg = s.stg := by rw [csrAssign_eq]
@[simp] theorem csrAssign_errKind : (csrAssign s n v).errKind = s.errKind := by rw [csrAssign_eq]
@[simp] theorem csrAssign_errStg : (csrAssign s n v).errStg = s.errStg := by rw [csrAssign_eq]
@[simp] theorem csrAssign_host : (csrAssign s n v).host = s.host := by rw [csrAssign_eq]

end Assign

/-- The data a run reads does not depend on the host's plans or on the sequencer's own state. -/
theorem runInput_congr {s t : State} (hc : t.cfg = s.cfg) (hl : t.len = s.len) (hm : t.mem = s.mem) :
    t.runInput = s.runInput := by
  unfold State.runInput; rw [hc, hl, hm]

end Sys2Proof.Machine
end

