-- ==== Sys2Proof/Laws/Host.lean ====
section
/-! SUPPORT. What one step can do, said once: which agent moved and how the state changed (spec/10_state.md R20, R32,
spec/40_pipeline_sequencer.md R113). -/

namespace Sys2Proof.Machine

/-- A step of the sequencer that gives a next state ran the stage operation STG names, while BUSY. -/
theorem sequencerStep_next {s t : State} (h : sequencerStep s = .next t) :
    s.state = .busy ∧ ∃ i : Instr, i.number = s.stg ∧ exec i s = .next t := by
  unfold sequencerStep at h
  split at h
  · next hb =>
    split at h
    · next i hd => exact ⟨hb, i, (decode_rom _ _).mp hd, h⟩
    · cases h
  · cases h

/-- A BUSY sequencer at stage number `k` runs stage `k`. -/
theorem sequencerStep_eq_exec {s : State} {i : Instr} (hb : s.state = .busy) (hi : i.number = s.stg) :
    sequencerStep s = exec i s := by
  simp [sequencerStep, hb, (decode_rom _ _).mpr hi]

/-- A host write of operand storage that gives a next state changed the storage of a core that was not busy. -/
theorem writeOperand_next {m : Memory} {s t : State} (h : writeOperand m s = .next t) :
    s.state ≠ .busy ∧ t = { s with mem := m } := by
  unfold writeOperand at h; split at h <;> cases h; exact ⟨‹_›, rfl⟩

/-- What a host write to a register can do: assign one of registers 0 to 14, start a run, or nothing. -/
theorem writeCsr_next {n v : Nat} {s t : State} (h : writeCsr n v s = .next t) :
    (n < 15 ∧ s.state ≠ .busy ∧ t = { csrAssign s n v with written := csrMark s.written n }) ∨
    (n = 15 ∧ v % 2 = 1 ∧ s.state ≠ .busy ∧ s.initialised = true ∧ t = startRun s) ∨
    (15 ≤ n ∧ t = s) := by
  unfold writeCsr at h
  split at h
  · split at h <;> cases h; exact .inl ⟨‹_›, ‹_›, rfl⟩
  · split at h
    · unfold writeCtrl at h
      split at h
      · split at h
        · cases h
        · split at h <;> cases h; exact .inr (.inl ⟨‹_›, ‹_›, ‹_›, ‹_›, rfl⟩)
      · cases h; exact .inr (.inr ⟨by omega, rfl⟩)
    · cases h; exact .inr (.inr ⟨by omega, rfl⟩)

/-- The length register of a space as the host reads it: its value, if it has been written. -/
theorem hostReadCsr_bits_length (s : State) (sp : BitSpace) :
    hostReadCsr s sp.lengthCsr = if csrHolds s.written sp.lengthCsr then some (s.len.bits sp) else none := by
  cases sp <;> rfl

theorem hostReadCsr_entries_length (s : State) (sp : PatSpace) :
    hostReadCsr s sp.lengthCsr = if csrHolds s.written sp.lengthCsr then some (s.len.entries sp) else none := by
  cases sp <;> rfl

theorem hostReadCsr_rows (s : State) (sp : MatSpace) :
    hostReadCsr s sp.rowsCsr = if csrHolds s.written sp.rowsCsr then some (s.len.rows sp) else none := by
  cases sp <;> rfl

theorem hostReadCsr_cols (s : State) (sp : MatSpace) :
    hostReadCsr s sp.colsCsr = if csrHolds s.written sp.colsCsr then some (s.len.cols sp) else none := by
  cases sp <;> rfl

/-- A host read of operand storage delivers a value exactly for an element that is written and lies below its length
register, which itself is written. -/
theorem hostReadBit_eq_some {s : State} {sp : BitSpace} {i : Nat} {b : Bit} :
    hostReadBit s sp i = some b ↔
      csrHolds s.written sp.lengthCsr = true ∧ i < s.len.bits sp ∧ (s.mem.bits sp).read i = some b := by
  unfold hostReadBit; split <;> simp_all

theorem hostReadEntry_eq_some {s : State} {sp : PatSpace} {i v : Nat} :
    hostReadEntry s sp i = some v ↔
      csrHolds s.written sp.lengthCsr = true ∧ i < s.len.entries sp ∧ (s.mem.entries sp).read i = some v := by
  unfold hostReadEntry; split <;> simp_all

theorem hostReadMatrix_eq_some {s : State} {sp : MatSpace} {i j : Nat} {b : Bit} :
    hostReadMatrix s sp i j = some b ↔
      (csrHolds s.written sp.rowsCsr = true ∧ i < s.len.rows sp) ∧
      (csrHolds s.written sp.colsCsr = true ∧ j < s.len.cols sp) ∧ (s.mem.matrix sp).read (i, j) = some b := by
  unfold hostReadMatrix; split <;> simp_all

/-- Where the length register or the element holds no value, or the index is not below the length, the host's read
delivers none. -/
theorem hostReadBit_eq_none {s : State} {sp : BitSpace} {i : Nat}
    (h : csrHolds s.written sp.lengthCsr = false ∨ s.len.bits sp ≤ i ∨ (s.mem.bits sp).read i = none) :
    hostReadBit s sp i = none := by
  unfold hostReadBit; split <;> grind

theorem hostReadEntry_eq_none {s : State} {sp : PatSpace} {i : Nat}
    (h : csrHolds s.written sp.lengthCsr = false ∨ s.len.entries sp ≤ i ∨ (s.mem.entries sp).read i = none) :
    hostReadEntry s sp i = none := by
  unfold hostReadEntry; split <;> grind

theorem hostReadMatrix_eq_none {s : State} {sp : MatSpace} {i j : Nat}
    (h : csrHolds s.written sp.rowsCsr = false ∨ csrHolds s.written sp.colsCsr = false ∨ s.len.rows sp ≤ i ∨
      s.len.cols sp ≤ j ∨ (s.mem.matrix sp).read (i, j) = none) :
    hostReadMatrix s sp i j = none := by
  unfold hostReadMatrix; split <;> grind

/-- Everything one step can do. In each case `u` is the state with the host's action taken off its list. -/
theorem step_next_cases {s t : State} (h : step s = .next t) :
    (∃ u : State, (u = s ∨ ∃ rest, s.host = .wait :: rest ∧ u = { s with host := rest }) ∧ s.state = .busy ∧
      ∃ i : Instr, i.number = s.stg ∧ exec i u = .next t) ∨
    (∃ a rest, s.host = a :: rest ∧
      ((∃ n v, a = .writeCsr n v ∧ n < 15 ∧ s.state ≠ .busy ∧
          t = { csrAssign { s with host := rest } n v with written := csrMark s.written n }) ∨
       (∃ v, a = .writeCsr 15 v ∧ v % 2 = 1 ∧ s.state ≠ .busy ∧ s.initialised = true ∧
          t = startRun { s with host := rest }) ∨
       (∃ sp i b, a = .writeBit sp i b ∧ s.state ≠ .busy ∧
          t = { s with host := rest, mem := s.mem.writeBit sp i b }) ∨
       (∃ sp i v, a = .writeEntry sp i v ∧ s.state ≠ .busy ∧
          t = { s with host := rest, mem := s.mem.writeEntry sp i v }) ∨
       (∃ sp i j b, a = .writeMatrix sp i j b ∧ s.state ≠ .busy ∧
          t = { s with host := rest, mem := s.mem.writeMatrix sp i j b }) ∨
       (a = .reset ∧ t = applyReset { s with host := rest }) ∨
       (a ≠ .reset ∧ t = { s with host := rest }))) := by
  unfold step stepAgents at h
  split at h
  · next hh =>
    obtain ⟨hb, i, hi, he⟩ := sequencerStep_next h
    exact .inl ⟨s, .inl rfl, hb, i, hi, he⟩
  · next a rest hh =>
    cases a with
    | writeCsr n v =>
      refine .inr ⟨_, rest, hh, ?_⟩
      rcases writeCsr_next h with ⟨hn, hb, rfl⟩ | ⟨rfl, hv, hb, hi, rfl⟩ | ⟨-, rfl⟩
      · exact .inl ⟨n, v, rfl, hn, hb, rfl⟩
      · exact .inr (.inl ⟨v, rfl, hv, hb, hi, rfl⟩)
      · exact .inr (.inr (.inr (.inr (.inr (.inr ⟨nofun, rfl⟩)))))
    | writeBit sp i b =>
      obtain ⟨hb, rfl⟩ := writeOperand_next h
      exact .inr ⟨_, rest, hh, .inr (.inr (.inl ⟨sp, i, b, rfl, hb, rfl⟩))⟩
    | writeEntry sp i v =>
      obtain ⟨hb, rfl⟩ := writeOperand_next h
      exact .inr ⟨_, rest, hh, .inr (.inr (.inr (.inl ⟨sp, i, v, rfl, hb, rfl⟩)))⟩
    | writeMatrix sp i j b =>
      obtain ⟨hb, rfl⟩ := writeOperand_next h
      exact .inr ⟨_, rest, hh, .inr (.inr (.inr (.inr (.inl ⟨sp, i, j, b, rfl, hb, rfl⟩))))⟩
    | writeResult r i b =>
      cases h; exact .inr ⟨_, rest, hh, .inr (.inr (.inr (.inr (.inr (.inr ⟨nofun, rfl⟩)))))⟩
    | wait =>
      simp only [hostStep] at h
      split at h
      · next hb =>
        obtain ⟨-, i, hi, he⟩ := sequencerStep_next h
        exact .inl ⟨{ s with host := rest }, .inr ⟨rest, hh, rfl⟩, hb, i, hi, he⟩
      · cases h; exact .inr ⟨_, rest, hh, .inr (.inr (.inr (.inr (.inr (.inr ⟨nofun, rfl⟩)))))⟩
    | reset =>
      cases h; exact .inr ⟨_, rest, hh, .inr (.inr (.inr (.inr (.inr (.inl ⟨rfl, rfl⟩)))))⟩

end Sys2Proof.Machine
end

