-- ==== Sys2Proof/Laws/Reads.lean ====
section
/-! SUPPORT. One spec lemma per operand read and per check (spec/40_pipeline_sequencer.md R111, spec/20_memory.md
R64). -/

namespace Sys2Proof.Machine

/-! ### Collecting values -/

theorem allSome_eq_some {α : Type} (os : List (Option α)) (vs : List α) :
    allSome os = some vs ↔ os = vs.map some := by
  induction os generalizing vs with
  | nil => cases vs <;> simp [allSome]
  | cons o os ih =>
    cases o with
    | none => cases vs <;> simp [allSome]
    | some a =>
      cases vs with
      | nil => cases h : allSome os <;> simp [allSome, h]
      | cons w ws => cases h : allSome os <;> simp [allSome, h, ← ih ws]

/-- The elements read are all there is to know of a prefix that holds values. -/
theorem firstN_eq_some {α : Type} (m : Cells Nat α) (n : Nat) (vs : List α) :
    m.firstN n = some vs ↔ vs.length = n ∧ ∀ i, i < n → m.read i = vs[i]? := by
  rw [Cells.firstN, allSome_eq_some, List.ext_getElem?_iff]
  constructor
  · intro h
    have hlen : vs.length = n := by
      have := congrArg List.length (List.ext_getElem?_iff.mpr h); simpa using this.symm
    refine ⟨hlen, fun i hi => ?_⟩
    have := h i
    simpa [hi, List.getElem?_eq_getElem (hlen ▸ hi)] using this
  · rintro ⟨hlen, h⟩ i
    by_cases hi : i < n
    · simp [hi, h i hi, List.getElem?_eq_getElem (hlen ▸ hi)]
    · simp [hi, hlen]

theorem firstN_of_reads {α : Type} {m : Cells Nat α} {n : Nat} {f : Nat → α}
    (h : ∀ i, i < n → m.read i = some (f i)) : m.firstN n = some ((List.range n).map f) := by
  rw [firstN_eq_some]; exact ⟨by simp, fun i hi => by simp [h i hi, hi]⟩

theorem firstN_none {α : Type} {m : Cells Nat α} {n i : Nat} (hi : i < n) (h : m.read i = none) :
    m.firstN n = none := by
  cases hv : m.firstN n with
  | none => rfl
  | some vs =>
    obtain ⟨hlen, hr⟩ := (firstN_eq_some m n vs).mp hv
    have := (hr i hi).symm.trans h
    simp [List.getElem?_eq_getElem (hlen ▸ hi)] at this

theorem firstN_length {α : Type} {m : Cells Nat α} {n : Nat} {vs : List α} (h : m.firstN n = some vs) :
    vs.length = n := ((firstN_eq_some m n vs).mp h).1

theorem rowsOf_of_reads {m : Cells (Nat × Nat) Bit} {r c : Nat} {f : Nat → Nat → Bit}
    (h : ∀ i j, i < r → j < c → m.read (i, j) = some (f i j)) :
    m.rowsOf r c = some ((List.range r).map fun i => (List.range c).map (f i)) := by
  rw [Cells.rowsOf, allSome_eq_some, List.map_map]
  refine List.map_congr_left fun i hi => ?_
  rw [Function.comp_apply, allSome_eq_some, List.map_map]
  exact List.map_congr_left fun j hj => h i j (List.mem_range.mp hi) (List.mem_range.mp hj)

theorem rowsOf_length {m : Cells (Nat × Nat) Bit} {r c : Nat} {rows : List (List Bit)}
    (h : m.rowsOf r c = some rows) : rows.length = r := by
  rw [Cells.rowsOf, allSome_eq_some] at h
  simpa using (congrArg List.length h).symm

theorem rowsOf_none {m : Cells (Nat × Nat) Bit} {r c i j : Nat} (hi : i < r) (hj : j < c)
    (h : m.read (i, j) = none) : m.rowsOf r c = none := by
  cases hv : m.rowsOf r c with
  | none => rfl
  | some rows =>
    rw [Cells.rowsOf, allSome_eq_some] at hv
    have h1 := congrArg (·[i]?) hv
    simp only [List.getElem?_map, List.getElem?_range hi, Option.map_some] at h1
    cases hrow : rows[i]? with
    | none => simp [hrow] at h1
    | some row =>
      simp only [hrow, Option.map_some, Option.some.injEq] at h1
      rw [allSome_eq_some] at h1
      have h2 := congrArg (·[j]?) h1
      simp only [List.getElem?_map, List.getElem?_range hj, Option.map_some, h] at h2
      cases hb : row[j]? <;> simp [hb] at h2

/-! ### Checks -/

/-- A check that fails ends the stage with its error; one that passes changes nothing. -/
@[simp] theorem require_bind {α : Type} (c : Bool) (e : StageError) (k : Unit → Except Stop α) :
    (require c e >>= k) = if c then k () else .error (.raise e) := by
  cases c <;> rfl

@[simp] theorem ok_bind {ε α β : Type} (a : α) (k : α → Except ε β) : ((Except.ok a : Except ε α) >>= k) = k a := rfl

@[simp] theorem error_bind {ε α β : Type} (e : ε) (k : α → Except ε β) :
    ((Except.error e : Except ε α) >>= k) = .error e := rfl

@[simp] theorem pure_ok {ε α : Type} (a : α) : (pure a : Except ε α) = .ok a := rfl

/-! ### Reads -/

/-- A read of operand bits delivers exactly the elements, or stops. -/
theorem readBits_eq_ok {sp : BitSpace} {n : Nat} {s : State} {vs : List Bit} :
    readBits sp n s = .ok vs ↔ n ≤ s.len.bits sp ∧ (s.mem.bits sp).firstN n = some vs := by
  unfold readBits orNotWritten; split <;> [split; skip] <;> simp_all

theorem readEntries_eq_ok {sp : PatSpace} {n : Nat} {s : State} {vs : List Nat} :
    readEntries sp n s = .ok vs ↔ n ≤ s.len.entries sp ∧ (s.mem.entries sp).firstN n = some vs := by
  unfold readEntries orNotWritten; split <;> [split; skip] <;> simp_all

theorem readMatrix_eq_ok {sp : MatSpace} {r c : Nat} {s : State} {rows : List (List Bit)} :
    readMatrix sp r c s = .ok rows ↔
      (r ≤ s.len.rows sp ∧ c ≤ s.len.cols sp) ∧ (s.mem.matrix sp).rowsOf r c = some rows := by
  unfold readMatrix orNotWritten; split <;> [split; skip] <;> simp_all

/-- A read of a result register delivers the register itself, when its flag is set and its length is right. -/
theorem readResult_eq_ok {r : BitReg} {n : Nat} {s : State} {vs : List Bit} :
    readResult r n s = .ok vs ↔
      hasFlag s.valid r.writer = true ∧ (s.res.bits r).length = n ∧ s.res.bits r = vs := by
  unfold readResult; split <;> [split; skip] <;> simp_all

theorem readIcb_eq_ok {s : State} {vs : List Bit} :
    readIcb s = .ok vs ↔
      ∃ info scr, readBits .info s.cfg.a s = .ok info ∧ readResult .scr s.cfg.p s = .ok scr ∧ vs = info ++ scr := by
  unfold readIcb
  cases readBits .info s.cfg.a s <;> cases readResult .scr s.cfg.p s <;> simp [eq_comm]

/-- An operand read never raises an error of the spec: it delivers values or stops on a fault. -/
theorem readBits_ne_raise {sp : BitSpace} {n : Nat} {s : State} {e : StageError} :
    readBits sp n s ≠ .error (.raise e) := by
  unfold readBits orNotWritten; split <;> [split; skip] <;> simp

theorem readEntries_ne_raise {sp : PatSpace} {n : Nat} {s : State} {e : StageError} :
    readEntries sp n s ≠ .error (.raise e) := by
  unfold readEntries orNotWritten; split <;> [split; skip] <;> simp

theorem readMatrix_ne_raise {sp : MatSpace} {r c : Nat} {s : State} {e : StageError} :
    readMatrix sp r c s ≠ .error (.raise e) := by
  unfold readMatrix orNotWritten; split <;> [split; skip] <;> simp

theorem readResult_ne_raise {r : BitReg} {n : Nat} {s : State} {e : StageError} :
    readResult r n s ≠ .error (.raise e) := by
  unfold readResult; split <;> [split; skip] <;> simp

/-! ### Reads that stop -/

theorem readResult_invalid {r : BitReg} {n : Nat} {s : State} (h : hasFlag s.valid r.writer = false) :
    readResult r n s = .error (.fault (.resultNotValid r)) := by
  simp [readResult, h]

theorem readResult_wrongLength {r : BitReg} {n : Nat} {s : State} (h : hasFlag s.valid r.writer = true)
    (hl : (s.res.bits r).length ≠ n) : readResult r n s = .error (.fault (.resultLength r)) := by
  simp [readResult, h, hl]

theorem readBits_none {sp : BitSpace} {n i : Nat} {s : State} (hn : n ≤ s.len.bits sp) (hi : i < n)
    (h : (s.mem.bits sp).read i = none) : readBits sp n s = .error (.fault (.elementNotWritten (.bits sp))) := by
  simp [readBits, orNotWritten, hn, firstN_none hi h]

theorem readBits_beyond {sp : BitSpace} {n : Nat} {s : State} (hn : s.len.bits sp < n) :
    readBits sp n s = .error (.fault (.indexBeyondLength (.bits sp))) := by
  simp [readBits, Nat.not_le.mpr hn]

theorem readEntries_none {sp : PatSpace} {n i : Nat} {s : State} (hn : n ≤ s.len.entries sp) (hi : i < n)
    (h : (s.mem.entries sp).read i = none) :
    readEntries sp n s = .error (.fault (.elementNotWritten (.entries sp))) := by
  simp [readEntries, orNotWritten, hn, firstN_none hi h]

theorem readMatrix_none {sp : MatSpace} {r c i j : Nat} {s : State} (hr : r ≤ s.len.rows sp)
    (hc : c ≤ s.len.cols sp) (hi : i < r) (hj : j < c) (h : (s.mem.matrix sp).read (i, j) = none) :
    readMatrix sp r c s = .error (.fault (.elementNotWritten (.matrix sp))) := by
  simp [readMatrix, orNotWritten, hr, hc, rowsOf_none hi hj h]

/-- Distinct values on `0..n-1` make a list without repeats. -/
theorem nodup_map_range {n : Nat} {f : Nat → Nat} (h : ∀ i i', i < i' → i' < n → f i ≠ f i') :
    ((List.range n).map f).Nodup := by
  refine List.Nodup.map_on (fun i hi j hj hij => ?_) List.nodup_range
  simp only [List.mem_range] at hi hj
  rcases Nat.lt_trichotomy i j with h' | h' | h'
  · exact absurd hij (h i j h' hj)
  · exact h'
  · exact absurd hij.symm (h j i h' hi)

/-- What the host has supplied, read as one record (R117): each operand is the prefix its length register gives. -/
theorem runInput_eq_some {s : State} {x : RunInput} :
    s.runInput = some x ↔
      x.cfg = s.cfg ∧ s.mem.info.firstN s.len.info = some x.info ∧
      s.mem.crcgen.rowsOf s.len.rowsCrcgen s.len.colsCrcgen = some x.crcgen.rowList ∧
      x.crcgen.rows = s.len.rowsCrcgen ∧ x.crcgen.cols = s.len.colsCrcgen ∧
      s.mem.rnti.firstN s.len.rnti = some x.rnti ∧ s.mem.cilpat.firstN s.len.cilpat = some x.cilpat ∧
      s.mem.ibpat.firstN s.len.ibpat = some x.ibpat ∧
      s.mem.encgen.rowsOf s.len.rowsEncgen s.len.colsEncgen = some x.encgen.rowList ∧
      x.encgen.rows = s.len.rowsEncgen ∧ x.encgen.cols = s.len.colsEncgen ∧
      s.mem.rmpat.firstN s.len.rmpat = some x.rmpat ∧ s.mem.ref.firstN s.len.ref = some x.ref := by
  obtain ⟨cfg, info, ⟨cr, cc, cl⟩, rnti, cil, ib, ⟨er, ec, el⟩, rm, ref⟩ := x
  unfold State.runInput
  split
  · simp_all only [Option.some.injEq, RunInput.mk.injEq, Matrix.mk.injEq]
    constructor
    · rintro ⟨rfl, rfl, ⟨rfl, rfl, rfl⟩, rfl, rfl, rfl, ⟨rfl, rfl, rfl⟩, rfl, rfl⟩; simp
    · rintro ⟨rfl, rfl, rfl, rfl, rfl, rfl, rfl, rfl, rfl, rfl, rfl, rfl, rfl⟩; simp
  · next h =>
    simp only [reduceCtorEq, false_iff]
    rintro ⟨-, h1, h2, -, -, h3, h4, h5, h6, -, -, h7, h8⟩
    exact h _ _ _ _ _ _ _ _ h1 h2 h3 h4 h5 h6 h7 h8

end Sys2Proof.Machine
end

