-- ==== Sys2Proof/Laws/Sequences.lean ====
section
/-! SUPPORT. Sequences of bits: lengths, elements, and the indexed XOR and count of the claims against the functions of
the model (spec/00_scope.md R9, R10, R12, R13). -/

namespace Sys2Proof.Machine

theorem xorSum_nil : xorSum [] = false := rfl

@[simp] theorem xorSum_cons (b : Bit) (bs : List Bit) : xorSum (b :: bs) = Bool.xor b (xorSum bs) := rfl

theorem xorSum_append (a b : List Bit) : xorSum (a ++ b) = Bool.xor (xorSum a) (xorSum b) := by
  induction a with
  | nil => simp [xorSum]
  | cons x xs ih => simp [ih]

/-- The indexed XOR is the XOR of the sequence of its terms. -/
theorem xorRange_eq_xorSum (n : Nat) (f : Nat → Bit) : xorRange n f = xorSum ((List.range n).map f) := by
  induction n with
  | zero => rfl
  | succ n ih => simp [xorRange, List.range_succ, xorSum_append, ih, xorSum_nil]

theorem xorRange_congr {n : Nat} {f g : Nat → Bit} (h : ∀ i, i < n → f i = g i) : xorRange n f = xorRange n g := by
  induction n with
  | zero => rfl
  | succ n ih => rw [xorRange, xorRange, ih fun i hi => h i (by omega), h n (by omega)]

/-- Taking the first term of an indexed XOR out. -/
theorem xorRange_succ_left (n : Nat) (f : Nat → Bit) :
    xorRange (n + 1) f = Bool.xor (f 0) (xorRange n fun i => f (i + 1)) := by
  induction n with
  | zero => simp [xorRange]
  | succ n ih => rw [xorRange, ih, xorRange, Bool.xor_assoc]

theorem countRange_congr {n : Nat} {p q : Nat → Bool} (h : ∀ i, i < n → p i = q i) :
    countRange n p = countRange n q := by
  induction n with
  | zero => rfl
  | succ n ih => rw [countRange, countRange, ih fun i hi => h i (by omega), h n (by omega)]

theorem countRange_succ_left (n : Nat) (p : Nat → Bool) :
    countRange (n + 1) p = (if p 0 then 1 else 0) + countRange n fun i => p (i + 1) := by
  induction n with
  | zero => simp [countRange]
  | succ n ih => rw [countRange, ih, countRange, Nat.add_assoc]

/-- Counting over a sequence is counting over its indices. -/
theorem countP_eq_countRange {α : Type} (l : List α) (d : α) (p : α → Bool) :
    l.countP p = countRange l.length fun i => p (l.getD i d) := by
  induction l with
  | nil => rfl
  | cons x xs ih => rw [List.countP_cons, List.length_cons, countRange_succ_left, ih]; simp [Nat.add_comm]

/-- A sequence given by its elements. -/
theorem countP_map_range {α : Type} (n : Nat) (f : Nat → α) (p : α → Bool) :
    ((List.range n).map f).countP p = countRange n fun i => p (f i) := by
  induction n with
  | zero => rfl
  | succ n ih => simp [List.range_succ, countRange, ih, List.countP_append, List.countP_cons]

@[simp] theorem zeros_length (n : Nat) : (zeros n).length = n := by simp [zeros]

@[simp] theorem gf2Vecmat_length (n : Nat) (v : List Bit) (rows : List (List Bit)) :
    (gf2Vecmat n v rows).length = n := by simp [gf2Vecmat]

/-- The XOR of a zip is an indexed XOR. -/
theorem xorSum_zipWith (v : List Bit) (rows : List (List Bit)) (j : Nat) (h : v.length = rows.length) :
    xorSum (List.zipWith (fun b row => b && row.getD j false) v rows) =
      xorRange v.length fun i => v.getD i false && (rows.getD i []).getD j false := by
  induction v generalizing rows with
  | nil => simp [xorSum, xorRange]
  | cons b bs ih =>
    cases rows with
    | nil => simp at h
    | cons r rs =>
      rw [List.length_cons, xorRange_succ_left, List.zipWith_cons_cons, xorSum_cons, ih rs (by simpa using h)]
      simp

/-- One bit of a product, when the matrix has a row for each bit of the vector. -/
theorem gf2Vecmat_getElem? {n : Nat} {v : List Bit} {rows : List (List Bit)} {j : Nat} (h : v.length = rows.length)
    (hj : j < n) :
    (gf2Vecmat n v rows)[j]? =
      some (xorRange v.length fun i => v.getD i false && (rows.getD i []).getD j false) := by
  simp only [gf2Vecmat, List.getElem?_map, List.getElem?_range hj, Option.map_some, xorSum_zipWith v rows j h]

@[simp] theorem xorBits_length (a b : List Bit) : (xorBits a b).length = min a.length b.length := by
  simp [xorBits]

theorem xorBits_getElem? (a b : List Bit) (i : Nat) (ha : i < a.length) (hb : i < b.length) :
    (xorBits a b)[i]? = some (Bool.xor (a.getD i false) (b.getD i false)) := by
  simp [xorBits, ha, hb]

@[simp] theorem gather_length (bits : List Bit) (p : List Index) : (gather bits p).length = p.length := by
  simp [gather]

theorem gather_getElem? (bits : List Bit) (p : List Index) (i : Nat) (hi : i < p.length) :
    (gather bits p)[i]? = some (bits.getD (p.getD i 0) false) := by
  simp [gather, hi]

@[simp] theorem scatterByPosition_length (ranks : List Rank) (bits : List Bit) :
    (scatterByPosition ranks bits).length = ranks.length := by
  induction ranks generalizing bits with
  | nil => rfl
  | cons r rs ih => rw [scatterByPosition]; split <;> simp [ih]

/-- The spec fixes position order (R174). -/
theorem frozenOf_eq (ranks : List Rank) (bits : List Bit) : frozenOf ranks bits = scatterByPosition ranks bits := rfl

@[simp] theorem frozenOf_length (ranks : List Rank) (bits : List Bit) : (frozenOf ranks bits).length = ranks.length :=
  scatterByPosition_length ranks bits

/-- One element of the position-order scatter: the bit whose index is the number of positive ranks before it. -/
theorem scatterByPosition_getElem? (ranks : List Rank) (bits : List Bit) (i : Nat) (hi : i < ranks.length) :
    (scatterByPosition ranks bits)[i]? =
      some (if 0 < ranks.getD i 0 then bits.getD (countRange i fun k => decide (0 < ranks.getD k 0)) false
        else false) := by
  induction ranks generalizing bits i with
  | nil => simp at hi
  | cons r rs ih =>
    cases i with
    | zero => cases bits <;> by_cases h : 0 < r <;> simp [scatterByPosition, h, countRange]
    | succ i =>
      have hi' : i < rs.length := by simpa using hi
      rw [countRange_succ_left, scatterByPosition]
      by_cases h : 0 < r
      · cases bits <;> simp [h, ih _ i hi', Nat.add_comm 1]
      · simp [h, ih _ i hi']

@[simp] theorem crcOf_length (p : Nat) (info : List Bit) (rows : List (List Bit)) :
    (crcOf p info rows).length = p := gf2Vecmat_length _ _ _

@[simp] theorem transformBits_length (f : List Bit) (rows : List (List Bit)) :
    (transformBits f rows).length = f.length := gf2Vecmat_length _ _ _

theorem scrambleMask_length {p : Nat} {r : List Bit} (h : r.length ≤ p) : (scrambleMask p r).length = p := by
  simp [scrambleMask]; omega

theorem scrambleBits_length {c r : List Bit} (h : r.length ≤ c.length) :
    (scrambleBits c r).length = c.length := by
  simp [scrambleBits, scrambleMask_length h]

/-- The mismatch count of two equally long sequences, by index (R212). -/
theorem mismatchCount_eq_countRange {a b : List Bit} (h : a.length = b.length) :
    mismatchCount a b = countRange a.length fun i => a.getD i false != b.getD i false := by
  induction a generalizing b with
  | nil => rfl
  | cons x xs ih =>
    cases b with
    | nil => simp at h
    | cons y ys =>
      have := ih (by simpa using h : xs.length = ys.length)
      rw [List.length_cons, countRange_succ_left]
      simp only [mismatchCount, xorBits, List.zipWith_cons_cons, List.count_cons] at this ⊢
      rw [this]
      cases x <;> cases y <;> simp [Nat.add_comm]

end Sys2Proof.Machine
end

