-- ==== Sys2Proof/Laws/Stages.lean ====
section
/-! SUPPORT. What a stage can do, said once: how each stage outcome becomes a step, and when each stage delivers a
value. -/

namespace Sys2Proof.Machine

/-- Everything a concluded stage can be: finished with its value stored, aborted with its error, or stopped. -/
theorem concludeStage_cases {α : Type} (i : Instr) (store : α → Results → Results) (r : Except Stop α) (s : State) :
    (∃ v, r = .ok v ∧ concludeStage i store r s = .next (finishStage i (store v s.res) s)) ∨
    (∃ e, r = .error (.raise e) ∧ concludeStage i store r s = .next (abort e i s)) ∨
    (∃ f, r = .error (.fault f) ∧ concludeStage i store r s = .fault f) := by
  match r with
  | .ok v => exact .inl ⟨v, rfl, rfl⟩
  | .error (.raise e) => exact .inr (.inl ⟨e, rfl, rfl⟩)
  | .error (.fault f) => exact .inr (.inr ⟨f, rfl, rfl⟩)

/-! ### When a stage delivers a value -/

theorem stage1_eq_ok {s : State} {v : List Bit} :
    stage1 s = .ok v ↔
      s.len.rowsCrcgen = s.len.info + 1 ∧ s.len.info = s.cfg.a ∧ s.len.rowsCrcgen = s.cfg.k ∧
      s.len.colsCrcgen = s.cfg.p ∧
      ∃ info rows, readBits .info s.len.info s = .ok info ∧
        readMatrix .crcgen s.len.rowsCrcgen s.len.colsCrcgen s = .ok rows ∧ v = crcOf s.cfg.p info rows := by
  simp only [stage1, require_bind]
  cases readBits .info s.len.info s <;> cases readMatrix .crcgen s.len.rowsCrcgen s.len.colsCrcgen s <;>
    grind [ok_bind, error_bind, pure_ok]

theorem stage2_eq_ok {s : State} {v : List Bit} :
    stage2 s = .ok v ↔
      s.len.rnti ≤ s.cfg.p ∧ ∃ crc rnti, readResult .crc s.cfg.p s = .ok crc ∧
        readBits .rnti s.len.rnti s = .ok rnti ∧ v = scrambleBits crc rnti := by
  simp only [stage2, require_bind]
  cases readResult .crc s.cfg.p s <;> cases readBits .rnti s.len.rnti s <;>
    grind [ok_bind, error_bind, pure_ok]

theorem stage3_eq_ok {s : State} {v : List Bit} :
    stage3 s = .ok v ↔
      s.len.cilpat = s.cfg.a + s.cfg.p ∧ ∃ pat icb, readEntries .cilpat s.len.cilpat s = .ok pat ∧
        inRange pat (s.cfg.a + s.cfg.p) = true ∧ noDuplicate pat = true ∧ readIcb s = .ok icb ∧
        v = gather icb pat := by
  simp only [stage3, require_bind]
  cases readEntries .cilpat s.len.cilpat s <;> cases readIcb s <;> grind [ok_bind, error_bind, pure_ok, require_bind]

theorem stage4_eq_ok {s : State} {v : List Bit} :
    stage4 s = .ok v ↔
      s.len.ibpat = s.cfg.n ∧ ∃ ranks bits, readEntries .ibpat s.cfg.n s = .ok ranks ∧
        positiveCount ranks = s.cfg.a + s.cfg.p ∧ readResult .ilv (s.cfg.a + s.cfg.p) s = .ok bits ∧
        v = frozenOf ranks bits := by
  simp only [stage4, require_bind]
  cases readEntries .ibpat s.cfg.n s <;> cases readResult .ilv (s.cfg.a + s.cfg.p) s <;>
    grind [ok_bind, error_bind, pure_ok, require_bind]

theorem stage5_eq_ok {s : State} {v : List Bit} :
    stage5 s = .ok v ↔
      s.len.rowsEncgen = s.cfg.n ∧ s.len.colsEncgen = s.cfg.n ∧
      ∃ frozen rows, readResult .frz s.cfg.n s = .ok frozen ∧
        readMatrix .encgen s.cfg.n s.cfg.n s = .ok rows ∧ v = transformBits frozen rows := by
  simp only [stage5, require_bind]
  cases readResult .frz s.cfg.n s <;> cases readMatrix .encgen s.cfg.n s.cfg.n s <;>
    grind [ok_bind, error_bind, pure_ok]

theorem stage6_eq_ok {s : State} {v : List Bit} :
    stage6 s = .ok v ↔
      s.len.rmpat = s.cfg.e ∧ ∃ pat enc, readEntries .rmpat s.cfg.e s = .ok pat ∧
        inRange pat s.cfg.n = true ∧ readResult .enc s.cfg.n s = .ok enc ∧ v = gather enc pat := by
  simp only [stage6, require_bind]
  cases readEntries .rmpat s.cfg.e s <;> cases readResult .enc s.cfg.n s <;>
    grind [ok_bind, error_bind, pure_ok, require_bind]

theorem stage7_eq_ok {s : State} {n : Nat} :
    stage7 s = .ok n ↔
      s.len.ref = s.cfg.e ∧ ∃ cand ref, readResult .rmo s.cfg.e s = .ok cand ∧
        readBits .ref s.cfg.e s = .ok ref ∧ n = mismatchCount cand ref := by
  simp only [stage7, require_bind]
  cases readResult .rmo s.cfg.e s <;> cases readBits .ref s.cfg.e s <;> grind [ok_bind, error_bind, pure_ok]

/-! ### The length of what a stage delivers (R120) -/

theorem stage1_length {s : State} {v : List Bit} (h : stage1 s = .ok v) : v.length = s.cfg.p := by
  obtain ⟨-, -, -, -, info, rows, -, -, rfl⟩ := stage1_eq_ok.mp h
  exact crcOf_length _ _ _

theorem stage2_length {s : State} {v : List Bit} (h : stage2 s = .ok v) : v.length = s.cfg.p := by
  obtain ⟨hle, crc, rnti, hc, hr, rfl⟩ := stage2_eq_ok.mp h
  obtain ⟨-, hlen, rfl⟩ := readResult_eq_ok.mp hc
  have := firstN_length (readBits_eq_ok.mp hr).2
  rw [scrambleBits_length (by omega), hlen]

theorem stage3_length {s : State} {v : List Bit} (h : stage3 s = .ok v) : v.length = s.cfg.a + s.cfg.p := by
  obtain ⟨hl, pat, icb, hp, -, -, -, rfl⟩ := stage3_eq_ok.mp h
  rw [gather_length, firstN_length (readEntries_eq_ok.mp hp).2, hl]

theorem stage4_length {s : State} {v : List Bit} (h : stage4 s = .ok v) : v.length = s.cfg.n := by
  obtain ⟨-, ranks, bits, hr, -, -, rfl⟩ := stage4_eq_ok.mp h
  rw [frozenOf_length, firstN_length (readEntries_eq_ok.mp hr).2]

theorem stage5_length {s : State} {v : List Bit} (h : stage5 s = .ok v) : v.length = s.cfg.n := by
  obtain ⟨-, -, frozen, rows, hf, -, rfl⟩ := stage5_eq_ok.mp h
  obtain ⟨-, hlen, rfl⟩ := readResult_eq_ok.mp hf
  rw [transformBits_length, hlen]

theorem stage6_length {s : State} {v : List Bit} (h : stage6 s = .ok v) : v.length = s.cfg.e := by
  obtain ⟨-, pat, enc, hp, -, -, rfl⟩ := stage6_eq_ok.mp h
  rw [gather_length, firstN_length (readEntries_eq_ok.mp hp).2]

/-! ### What one stage operation can do -/

/-- What a successful stage operation stores: the result register it owns, with the length the configuration gives it,
and no other. -/
structure StoresOwn (i : Instr) (s : State) (r' : Results) : Prop where
  others : ∀ b : BitReg, b.writer ≠ i → r'.bits b = s.res.bits b
  count : i ≠ .compare → r'.mmc = s.res.mmc
  length : ∀ b : BitReg, b.writer = i → (r'.bits b).length = resultLength s.cfg b
  info : i = .computeCrc → s.len.info = s.cfg.a

/-- A stage operation that gives a next state either finishes, having stored only its own result, or aborts. -/
theorem exec_next_cases {i : Instr} {s t : State} (h : exec i s = .next t) :
    (∃ r', StoresOwn i s r' ∧ t = finishStage i r' s) ∨ (∃ e, t = abort e i s) := by
  cases i <;> simp only [exec, execComputeCrc, execScramble, execInterleave, execMapFrozen, execTransform,
    execRateMatch, execCompare] at h
  all_goals
    rcases concludeStage_cases _ _ _ s with ⟨v, hv, hr⟩ | ⟨e, -, hr⟩ | ⟨f, -, hr⟩
    · rw [hr] at h; cases h
      refine .inl ⟨_, ⟨fun b hb => ?_, fun hc => ?_, fun b hb => ?_, fun hi => ?_⟩, rfl⟩
      · cases b <;> first | rfl | exact absurd rfl hb
      · first | rfl | exact absurd rfl hc
      · cases b <;> first | exact absurd hb (by decide) | skip
        all_goals first
          | exact stage1_length hv
          | exact stage2_length hv
          | exact stage3_length hv
          | exact stage4_length hv
          | exact stage5_length hv
          | exact stage6_length hv
      · first | exact absurd hi (by decide) | exact (stage1_eq_ok.mp hv).2.1
    · rw [hr] at h; cases h; exact .inr ⟨e, rfl⟩
    · rw [hr] at h; cases h

/-- No stage operation is refused. -/
theorem exec_ne_refused (i : Instr) (s : State) (r : Refusal) : exec i s ≠ .refused r := by
  cases i <;> simp only [exec, execComputeCrc, execScramble, execInterleave, execMapFrozen, execTransform,
    execRateMatch, execCompare, ne_eq]
  all_goals
    rcases concludeStage_cases _ _ _ s with ⟨v, -, hr⟩ | ⟨e, -, hr⟩ | ⟨f, -, hr⟩ <;> rw [hr] <;> exact nofun

end Sys2Proof.Machine
end

