-- ==== Sys2Proof/Laws/Invariant.lean ====
section
/-! SUPPORT. The parts of the invariant of Safety.lean as plain statements, what one stage operation does to them, and
that a stage operation in a state with the invariant never stops (spec/40_pipeline_sequencer.md R113, R120;
spec/60_exceptions.md R248). -/

namespace Sys2Proof.Machine

/-- Whether everything has been supplied depends only on what the host writes. -/
theorem initialised_congr {s t : State} (hw : t.written = s.written) (hc : t.cfg = s.cfg) (hl : t.len = s.len)
    (hm : t.mem = s.mem) : t.initialised = s.initialised := by
  simp [State.initialised, hw, runInput_congr hc hl hm]

theorem noValueBehindClearFlags_iff (s : State) :
    s.noValueBehindClearFlags = true ↔
      (∀ r : BitReg, hasFlag s.valid r.writer = false → s.res.bits r = []) ∧
      (hasFlag s.valid .compare = false → s.res.mmc = 0) := by
  have key : (allBitRegs.all fun r => hasFlag s.valid r.writer || s.res.bits r == []) = true ↔
      ∀ r : BitReg, hasFlag s.valid r.writer = false → s.res.bits r = [] := by
    simp only [List.all_eq_true, Bool.or_eq_true, beq_iff_eq]
    constructor
    · intro h r hr
      exact (h r (by cases r <;> decide)).resolve_left (by simp [hr])
    · intro h r _
      cases hf : hasFlag s.valid r.writer
      · exact .inr (h r hf)
      · exact .inl rfl
  rw [State.noValueBehindClearFlags, Bool.and_eq_true, key]
  cases hasFlag s.valid .compare <;> simp

theorem lengthsOk_iff (s : State) :
    s.lengthsOk = true ↔
      ∀ r : BitReg, hasFlag s.valid r.writer = true → (s.res.bits r).length = resultLength s.cfg r := by
  simp only [State.lengthsOk, List.all_eq_true, Bool.or_eq_true, Bool.not_eq_true', beq_iff_eq]
  constructor
  · intro h r hr
    exact (h r (by cases r <;> decide)).resolve_left (by simp [hr])
  · intro h r _
    cases hf : hasFlag s.valid r.writer
    · exact .inl rfl
    · exact .inr (h r hf)

/-- What the invariant says of a state in a run. -/
theorem Inv_busy {s : State} (hI : s.Inv) (hb : s.state = .busy) :
    s.stg ≠ 0 ∧ s.errKind = .none ∧ s.errStg = 0 ∧ s.valid = flagsBelow s.stg ∧ s.initialised = true ∧
      s.lengthsOk = true ∧ (2 ≤ s.stg.val → s.len.info = s.cfg.a) := by
  obtain ⟨-, hc, -, hbz⟩ := hI
  simp only [State.coherent, hb, Bool.and_eq_true, bne_iff_ne, beq_iff_eq] at hc
  exact ⟨hc.1.1.1, hc.1.1.2, hc.1.2, hc.2, hbz hb⟩

/-- The invariant and the lengths of the results after one stage operation of a run. -/
theorem exec_keeps_Inv {u t : State} {i : Instr} (hI : u.Inv) (hb : u.state = .busy) (hi : i.number = u.stg)
    (h : exec i u = .next t) : t.Inv ∧ t.lengthsOk = true := by
  obtain ⟨hs, he, hes, hv, hin, hl, h2⟩ := Inv_busy hI hb
  obtain ⟨hm, -, hn, -⟩ := hI
  rw [lengthsOk_iff] at hl
  rw [noValueBehindClearFlags_iff] at hn
  rcases exec_next_cases h with ⟨r', hr, rfl⟩ | ⟨e, rfl⟩
  · have hlen : (finishStage i r' u).lengthsOk = true := by
      rw [lengthsOk_iff]
      intro r hf
      simp only [finishStage_valid, finishStage_res, finishStage_cfg, hasFlag_setFlag, Bool.or_eq_true,
        decide_eq_true_eq] at hf ⊢
      by_cases hw : r.writer = i
      · exact hr.length r hw
      · rw [hr.others r hw]; exact hl r (hf.resolve_left hw)
    refine ⟨⟨by simpa using hm, ?_, ?_, fun _ => ⟨?_, hlen, fun _ => ?_⟩⟩, hlen⟩
    · have hv' : setFlag u.valid i = if i = .compare then BitVec.allOnes 7 else flagsBelow (i.number + 1) := by
        rw [hv, ← hi, setFlag_flagsBelow]
      simp only [State.coherent, finishStage_state, finishStage_stg, finishStage_valid, finishStage_errKind,
        finishStage_errStg, he, hes, hv', hb]
      cases i <;> decide
    · rw [noValueBehindClearFlags_iff]
      simp only [finishStage_valid, finishStage_res, hasFlag_setFlag, Bool.or_eq_false_iff,
        decide_eq_false_iff_not]
      exact ⟨fun r h => by rw [hr.others r h.1]; exact hn.1 r h.2,
        fun h => by rw [hr.count (Ne.symm h.1)]; exact hn.2 h.2⟩
    · rw [initialised_congr (s := u) (by simp) (by simp) (by simp) (by simp)]; exact hin
    · simp only [finishStage_len, finishStage_cfg]
      by_cases h1 : i = .computeCrc
      · exact hr.info h1
      · refine h2 (hi ▸ ?_); cases i <;> first | exact absurd rfl h1 | decide
  · refine ⟨⟨hm, ?_, by rw [noValueBehindClearFlags_iff]; exact hn, by simp⟩, by rw [lengthsOk_iff]; exact hl⟩
    simp only [State.coherent, abort_state, abort_stg, abort_errKind, abort_errStg, abort_valid, hi, hv]
    cases e <;> simp [hs, StageError.kind]

/-- A concluded stage is a next state unless the stage stopped on a fault. -/
theorem concludeStage_is_next {α : Type} {i : Instr} {store : α → Results → Results} {r : Except Stop α} {s : State}
    (h : ∀ f, r ≠ .error (.fault f)) : ∃ t, concludeStage i store r s = .next t := by
  rcases concludeStage_cases i store r s with ⟨v, -, h'⟩ | ⟨e, -, h'⟩ | ⟨f, h', -⟩
  · exact ⟨_, h'⟩
  · exact ⟨_, h'⟩
  · exact absurd h' (h f)

/-- In a run whose state has the invariant, the stage operation of stage STG completes or aborts; it never stops. -/
theorem exec_is_next {u : State} {i : Instr} (hI : u.Inv) (hb : u.state = .busy) (hi : i.number = u.stg) :
    ∃ t, exec i u = .next t := by
  obtain ⟨hs, he, hes, hv, hin, hl, h2⟩ := Inv_busy hI hb
  rw [lengthsOk_iff] at hl
  simp only [State.initialised, Bool.and_eq_true, Option.isSome_iff_exists] at hin
  obtain ⟨x, hx⟩ := hin.2
  obtain ⟨-, c2, c3, -, -, c4, c5, c6, c7, -, -, c8, c9⟩ := runInput_eq_some.mp hx
  have key : ∀ r : BitReg, r.writer.number < i.number →
      readResult r (resultLength u.cfg r) u = .ok (u.res.bits r) := by
    intro r hr
    have hf : hasFlag u.valid r.writer = true := by rw [hv, hasFlag_flagsBelow, ← hi]; simpa using hr
    exact readResult_eq_ok.mpr ⟨hf, hl r hf, rfl⟩
  have rb : ∀ sp n vs, n = u.len.bits sp → (u.mem.bits sp).firstN (u.len.bits sp) = some vs →
      readBits sp n u = .ok vs := fun sp n vs h h' => readBits_eq_ok.mpr ⟨h.le, h ▸ h'⟩
  have re : ∀ sp n vs, n = u.len.entries sp → (u.mem.entries sp).firstN (u.len.entries sp) = some vs →
      readEntries sp n u = .ok vs := fun sp n vs h h' => readEntries_eq_ok.mpr ⟨h.le, h ▸ h'⟩
  have rm : ∀ sp r c vs, r = u.len.rows sp → c = u.len.cols sp →
      (u.mem.matrix sp).rowsOf (u.len.rows sp) (u.len.cols sp) = some vs → readMatrix sp r c u = .ok vs :=
    fun sp r c vs h h' h'' => readMatrix_eq_ok.mpr ⟨⟨h.le, h'.le⟩, h ▸ h' ▸ h''⟩
  cases i <;> simp only [exec, execComputeCrc, execScramble, execInterleave, execMapFrozen, execTransform,
    execRateMatch, execCompare] <;> refine concludeStage_is_next fun f => ?_
  · have h1 := rb .info _ _ rfl c2
    have h2 := rm .crcgen _ _ _ rfl rfl c3
    simp only [LenRegs.bits, LenRegs.rows, LenRegs.cols] at h1 h2
    simp only [stage1, require_bind, h1, h2, ok_bind, pure_ok]
    repeat' split
    all_goals simp
  · have h1 := key .crc (by decide)
    have h2 := rb .rnti _ _ rfl c4
    simp only [LenRegs.bits, resultLength] at h1 h2
    simp only [stage2, require_bind, h1, h2, ok_bind, pure_ok]
    repeat' split
    all_goals simp
  · have h1 := key .scr (by decide)
    have h3 := rb .info u.cfg.a _ (h2 (by rw [← hi]; decide)).symm c2
    have h4 := re .cilpat _ _ rfl c5
    simp only [LenRegs.entries, resultLength] at h1 h4
    have h5 := readIcb_eq_ok.mpr ⟨_, _, h3, h1, rfl⟩
    simp only [stage3, require_bind, h4, h5, ok_bind, pure_ok]
    repeat' split
    all_goals simp
  · have h1 := key .ilv (by decide)
    simp only [resultLength] at h1
    by_cases hn : u.len.ibpat = u.cfg.n
    · have h4 := re .ibpat u.cfg.n _ hn.symm c6
      simp only [stage4, require_bind, h1, h4, ok_bind, pure_ok]
      repeat' split
      all_goals simp
    · simp [stage4, hn]
  · have h1 := key .frz (by decide)
    simp only [resultLength] at h1
    by_cases hr : u.len.rowsEncgen = u.cfg.n
    · by_cases hc : u.len.colsEncgen = u.cfg.n
      · have h4 := rm .encgen u.cfg.n u.cfg.n _ hr.symm hc.symm c7
        simp [stage5, hr, hc, h1, h4]
      · simp [stage5, hr, hc]
    · simp [stage5, hr]
  · have h1 := key .enc (by decide)
    simp only [resultLength] at h1
    by_cases hn : u.len.rmpat = u.cfg.e
    · have h4 := re .rmpat u.cfg.e _ hn.symm c8
      simp only [stage6, require_bind, h1, h4, ok_bind, pure_ok]
      repeat' split
      all_goals simp
    · simp [stage6, hn]
  · have h1 := key .rmo (by decide)
    simp only [resultLength] at h1
    by_cases hn : u.len.ref = u.cfg.e
    · have h4 := rb .ref u.cfg.e _ hn.symm c9
      simp [stage7, hn, h1, h4]
    · simp [stage7, hn]

end Sys2Proof.Machine
end

