-- ==== Sys2Proof/Laws/PerInstr.lean ====
section
/-! SUPPORT. Per stage operation, as syntax: its code against its stage number and the program store
(spec/30_encoding.md R90, R92). -/

namespace Sys2Proof.Laws

/-- The code of a stage operation, read as a number with bit 2 the most significant, is its stage number; the program
store holds that code at that entry; and the operation has nothing that could be ill formed (R90, R91, R92). -/
def EncodingMatchesTable.Statement (i : Instr) : Prop :=
  (encode i).toNat = i.number.val ∧ Machine.rom i.number = encode i ∧ i.wellFormed = true

theorem EncodingMatchesTable.computeCrc : EncodingMatchesTable.Statement .computeCrc := by
  unfold EncodingMatchesTable.Statement; decide

theorem EncodingMatchesTable.scramble : EncodingMatchesTable.Statement .scramble := by
  unfold EncodingMatchesTable.Statement; decide

theorem EncodingMatchesTable.interleave : EncodingMatchesTable.Statement .interleave := by
  unfold EncodingMatchesTable.Statement; decide

theorem EncodingMatchesTable.mapFrozen : EncodingMatchesTable.Statement .mapFrozen := by
  unfold EncodingMatchesTable.Statement; decide

theorem EncodingMatchesTable.transform : EncodingMatchesTable.Statement .transform := by
  unfold EncodingMatchesTable.Statement; decide

theorem EncodingMatchesTable.rateMatch : EncodingMatchesTable.Statement .rateMatch := by
  unfold EncodingMatchesTable.Statement; decide

theorem EncodingMatchesTable.compare : EncodingMatchesTable.Statement .compare := by
  unfold EncodingMatchesTable.Statement; decide

end Sys2Proof.Laws
end

