-- ==== Sys2Proof/Tests/Slice0.lean ====
section
/-! SUPPORT. Tests: the codes of spec/30_encoding.md R92 written out, the loader's checks on ill-formed inputs, one step
on vectors of spec/95_test_vectors.md per stage, and for every obligation with hypotheses a witness that meets them. -/

namespace Sys2Proof.Tests

open Sys2Proof Sys2Proof.Machine

/-! ### Helpers -/

def bits (l : List Nat) : List Bit := l.map fun n => n == 1

def matrix (rows : List (List Nat)) (c : Nat) : Matrix := { rows := rows.length, cols := c, rowList := rows.map bits }

def vectorCells {α : Type} (l : List α) : Cells Nat α := l.zipIdx.map fun p => (p.2, p.1)

def matrixCells (m : Matrix) : Cells (Nat × Nat) Bit :=
  (List.range m.cols).flatMap fun j => m.rowList.zipIdx.map fun p => ((p.2, j), p.1.getD j false)

/-- The idle core in which the host has written the input `x`. -/
def place (x : RunInput) : State :=
  { State.reset with
    cfg := x.cfg
    len := { info := x.info.length, rowsCrcgen := x.crcgen.rows, colsCrcgen := x.crcgen.cols, rnti := x.rnti.length
             cilpat := x.cilpat.length, ibpat := x.ibpat.length, rowsEncgen := x.encgen.rows
             colsEncgen := x.encgen.cols, rmpat := x.rmpat.length, ref := x.ref.length }
    written := BitVec.allOnes 15
    mem := { info := vectorCells x.info, crcgen := matrixCells x.crcgen, rnti := vectorCells x.rnti
             cilpat := vectorCells x.cilpat, ibpat := vectorCells x.ibpat, encgen := matrixCells x.encgen
             rmpat := vectorCells x.rmpat, ref := vectorCells x.ref } }

/-- The core about to run stage `k` of a run on `x`, with the results `r` of the earlier stages. -/
def atStage (k : Fin 8) (x : RunInput) (r : Results) : State :=
  { place x with state := .busy, stg := k, valid := flagsBelow k, res := r }

def after (o : Outcome) : Option State :=
  match o with
  | .next t => some t
  | _ => none

/-- What a step recorded of an error: ERRKIND, ERRSTG, STATE, STG. -/
def errorOf (o : Outcome) : Option (ErrKind × Fin 8 × RunState × Fin 8) :=
  (after o).map fun t => (t.errKind, t.errStg, t.state, t.stg)

def noOperand : RunInput :=
  { cfg := { a := 0, p := 0, k := 0, e := 0, n := 0 }, info := [], crcgen := matrix [] 0, rnti := [], cilpat := []
    ibpat := [], encgen := matrix [] 0, rmpat := [], ref := [] }

/-! ### Decoding (the table of R92, bit 2 first) -/

theorem test_decode_compute_crc : decode 0b001#3 = .stage .computeCrc := by decide
theorem test_decode_scramble : decode 0b010#3 = .stage .scramble := by decide
theorem test_decode_interleave : decode 0b011#3 = .stage .interleave := by decide
theorem test_decode_map_frozen : decode 0b100#3 = .stage .mapFrozen := by decide
theorem test_decode_transform : decode 0b101#3 = .stage .transform := by decide
theorem test_decode_rate_match : decode 0b110#3 = .stage .rateMatch := by decide
theorem test_decode_compare : decode 0b111#3 = .stage .compare := by decide
theorem test_decode_halt : decode 0b000#3 = .halt := by decide
theorem test_decodeWord_rejects_halt : (match decodeWord 0 with | .error .halt => true | _ => false) = true := by decide
theorem test_decodeBytes_second_byte : (match decodeBytes [1#8, 0#8] with | .ok .computeCrc => true | _ => false) = true := by
  decide
theorem test_decodeBytes_rejects_wide : (match decodeBytes [1#8, 1#8] with | .error (.notACode 257) => true | _ => false) = true := by
  decide

/-! ### Well-formedness: a small consistent input, and one ill-formed input for each check -/

/-- A consistent input with A = 1, P = 1, K = 2, E = 3, N = 2. -/
def tiny : RunInput :=
  { cfg := { a := 1, p := 1, k := 2, e := 3, n := 2 }
    info := bits [1], crcgen := matrix [[1], [1]] 1, rnti := bits [1], cilpat := [1, 0], ibpat := [2, 1]
    encgen := matrix [[1, 0], [1, 1]] 2, rmpat := [1, 0, 1], ref := bits [0, 0, 1] }

theorem test_wellFormed_tiny : tiny.wellFormed = true := by decide
theorem test_infoOk_refuses : RunInput.infoOk { tiny with info := bits [1, 0] } = false := by decide
theorem test_crcgenOk_refuses : RunInput.crcgenOk { tiny with cfg := { tiny.cfg with k := 3 } } = false := by decide
theorem test_rntiOk_refuses : RunInput.rntiOk { tiny with rnti := bits [1, 1] } = false := by decide
theorem test_cilpatOk_refuses_duplicate : RunInput.cilpatOk { tiny with cilpat := [1, 1] } = false := by decide
theorem test_cilpatOk_refuses_range : RunInput.cilpatOk { tiny with cilpat := [2, 0] } = false := by decide
theorem test_ibpatOk_refuses : RunInput.ibpatOk { tiny with ibpat := [2, 0] } = false := by decide
theorem test_encgenOk_refuses : RunInput.encgenOk { tiny with encgen := matrix [[1, 0]] 2 } = false := by decide
theorem test_rmpatOk_refuses : RunInput.rmpatOk { tiny with rmpat := [1, 2, 1] } = false := by decide
theorem test_refOk_refuses : RunInput.refOk { tiny with ref := bits [0] } = false := by decide
theorem test_wellShaped_refuses :
    Matrix.wellShaped { rows := 2, cols := 1, rowList := [bits [1], bits [1, 0]] } = false := by decide

/-! ### One step per stage, on the vectors of spec/95_test_vectors.md -/

/-- The matrix M2 of the vectors. -/
def m2 : Matrix := matrix [[1, 0, 1], [1, 1, 0], [0, 1, 1], [1, 1, 1], [0, 0, 1]] 3

def crcInput : RunInput :=
  { noOperand with cfg := { a := 4, p := 3, k := 5, e := 0, n := 0 }, info := bits [1, 1, 0, 1], crcgen := m2 }

/-- V-CRC-6, V-SEQ-3. -/
theorem test_compute_crc_value :
    (after (step (atStage 1 crcInput Results.noValue))).map (fun t => (t.res.crc, t.stg, t.valid)) =
      some (bits [0, 0, 1], 2, 0b0000001#7) := by decide

/-- V-CRC-9: K = 6 beside a matrix of 5 rows. -/
theorem test_compute_crc_shape :
    errorOf (step (atStage 1 { crcInput with cfg := { crcInput.cfg with k := 6 } } Results.noValue)) =
      some (.shape, 1, .err, 1) := by decide

def scrState (rnti : List Nat) : State :=
  atStage 2 { noOperand with cfg := { noOperand.cfg with p := 6 }, rnti := bits rnti }
    { Results.noValue with crc := bits [1, 0, 1, 1, 0, 0] }

/-- V-SCR-2: the identifier lands on the suffix. -/
theorem test_scramble_suffix :
    (after (step (scrState [1, 0, 1]))).map (fun t => t.res.scr) = some (bits [1, 0, 1, 0, 0, 1]) := by decide

/-- V-SCR-6. -/
theorem test_scramble_shape : errorOf (step (scrState [1, 0, 1, 1, 0, 0, 1])) = some (.shape, 2, .err, 2) := by
  decide

def ilvState (pat : List Nat) : State :=
  atStage 3 { noOperand with cfg := { noOperand.cfg with a := 4, p := 2 }, info := bits [1, 0, 0, 1], cilpat := pat }
    { Results.noValue with scr := bits [1, 0] }

/-- V-ILV-4: a gather, not a scatter. -/
theorem test_interleave_gather :
    (after (step (ilvState [3, 0, 4, 1, 5, 2]))).map (fun t => t.res.ilv) = some (bits [1, 1, 1, 0, 0, 0]) := by
  decide

/-- V-ILV-7: a duplicate. -/
theorem test_interleave_duplicate : errorOf (step (ilvState [0, 1, 2, 3, 3, 5])) = some (.index, 3, .err, 3) := by
  decide

def frzState (n : Nat) (ilv pat : List Nat) : State :=
  atStage 4 { noOperand with cfg := { noOperand.cfg with a := ilv.length, n := n }, ibpat := pat }
    { Results.noValue with ilv := bits ilv }

/-- V-FRZ-3: position order, where rank order would give `[0,0,1,0,0,1]`. -/
theorem test_map_frozen_position_order :
    (after (step (frzState 6 [1, 1, 0] [5, 0, 1, 0, 0, 3]))).map (fun t => t.res.frz) =
      some (bits [1, 0, 1, 0, 0, 0]) := by decide

/-- V-FRZ-7: one positive rank too many. -/
theorem test_map_frozen_count :
    errorOf (step (frzState 8 [0, 1, 1, 0, 1] [1, 1, 2, 0, 3, 4, 0, 5])) = some (.shape, 4, .err, 4) := by decide

/-- V-FRZ-10. -/
theorem test_extract_info : extractInfo (bits [1, 0, 1, 0, 0, 0]) [5, 0, 1, 0, 0, 3] = bits [1, 1, 0] := by decide

def polState (m : Matrix) (n : Nat) (frz : List Nat) : State :=
  atStage 5 { noOperand with cfg := { noOperand.cfg with n := n }, encgen := m }
    { Results.noValue with frz := bits frz }

/-- V-POL-11 with Ms: a unit vector selects a row, not a column, and N need not be a power of two. -/
theorem test_transform_row :
    (after (step (polState (matrix [[0, 1, 1], [1, 0, 1], [0, 0, 1]] 3) 3 [1, 0, 0]))).map (fun t => t.res.enc) =
      some (bits [0, 1, 1]) := by decide

/-- V-POL-12 with G4: rows 0, 2 and 3. -/
theorem test_transform_rows :
    (after (step (polState (matrix [[1, 0, 0, 0], [1, 1, 0, 0], [1, 0, 1, 0], [1, 1, 1, 1]] 4) 4 [1, 0, 1, 1]))).map
      (fun t => t.res.enc) = some (bits [1, 1, 0, 1]) := by decide

def rmState (pat : List Nat) : State :=
  atStage 6 { noOperand with cfg := { noOperand.cfg with e := pat.length, n := 8 }, rmpat := pat }
    { Results.noValue with enc := bits [1, 0, 1, 1, 1, 1, 1, 0] }

/-- V-RM-10: E greater than N, with repeats. -/
theorem test_rate_match_repeats :
    (after (step (rmState [7, 6, 5, 4, 3, 2, 1, 0, 7, 6]))).map (fun t => t.res.rmo) =
      some (bits [0, 1, 1, 1, 1, 1, 0, 1, 0, 1]) := by decide

/-- V-RM-7: the entry N. -/
theorem test_rate_match_range : errorOf (step (rmState [0, 1, 8])) = some (.index, 6, .err, 6) := by decide

def cmpState (rmo ref : List Nat) : State :=
  atStage 7 { noOperand with cfg := { noOperand.cfg with e := rmo.length }, ref := bits ref }
    { Results.noValue with rmo := bits rmo }

/-- V-CMP-5, V-SEQ-4: two positions differ, and the run is DONE. -/
theorem test_compare_count :
    (after (step (cmpState [0, 1, 1, 1, 1, 1, 0, 1, 0, 1] [0, 1, 1, 0, 1, 1, 0, 1, 1, 1]))).map
      (fun t => (t.res.mmc, t.state, t.stg, t.valid)) = some (2, .done, 0, 0b1111111#7) := by decide

/-- V-CMP-7: 9 reference bits against 8. -/
theorem test_compare_shape :
    errorOf (step (cmpState [0, 0, 1, 0, 1, 0, 0, 1] [0, 0, 1, 0, 1, 0, 0, 1, 0])) = some (.shape, 7, .err, 7) := by
  decide

/-- V-SEQ-2: the start command. -/
theorem test_start :
    (after (step { place tiny with host := [.writeCsr 15 1] })).map
      (fun t => (t.state, t.stg, t.errKind, t.errStg, t.valid)) = some (.busy, 1, .none, 0, 0#7) := by decide

/-- R35: right after reset the host has written nothing, so the start command is refused. -/
theorem test_start_before_initialised :
    (match step { State.reset with host := [.writeCsr 15 1] } with
      | .refused .startBeforeInitialised => true | _ => false) = true := by decide

/-! ### Witnesses: states and operands that meet the hypotheses of the obligations -/

/-- The results of the stages before stage `k` on `tiny`, computed by hand from the stage rules. -/
def tinyResults (k : Nat) : Results :=
  { crc := if 1 < k then bits [0] else [], scr := if 2 < k then bits [1] else []
    ilv := if 3 < k then bits [1, 1] else [], frz := if 4 < k then bits [1, 1] else []
    enc := if 5 < k then bits [0, 1] else [], rmo := if 6 < k then bits [1, 0, 1] else [], mmc := 0 }

/-- The core about to run stage `k` of the run on `tiny`. -/
def tinyAt (k : Fin 8) : State := atStage k tiny (tinyResults k.val)

/-- The core after the run on `tiny`. -/
def tinyDone : State :=
  { place tiny with state := .done, stg := 0, valid := BitVec.allOnes 7, res := { tinyResults 8 with mmc := 1 } }

/-- The core after a run that stage 1 aborted. -/
def tinyErr : State := { place tiny with state := .err, stg := 1, errStg := 1, errKind := .shape }

theorem witness_ResetHoldsNoValueAndNoRun :
    State.reset.written.getLsbD 14 = false ∧ State.reset.state ≠ .busy ∧ 3 % 2 = 1 ∧
    (∃ n, n < 15 ∧ State.reset.written.getLsbD n = false) ∧
    (let s := { place tiny with mem := Memory.empty }; s.state ≠ .busy ∧ s.runInput = none) :=
  ⟨by decide, by decide, by decide, ⟨0, by decide⟩, by decide⟩

theorem witness_StatusRegistersReadTheirCodes : 22 ≤ 22 := by decide

theorem witness_ResultReadsNeedFlagAndNotBusy :
    (tinyAt 7).state = .busy ∧ (place tiny).valid.getLsbD 6 = false ∧ tinyDone.state ≠ .busy ∧
    (∀ r : BitReg, tinyDone.valid.getLsbD (r.writer.number.val - 1) = true) ∧ tinyDone.valid.getLsbD 6 = true :=
  ⟨by decide, by decide, by decide, fun r => by cases r <;> decide, by decide⟩

theorem witness_StageCodesDecodeAsTabulated : 8 ≤ 8 ∧ decodeTableWord 8 8 = none := by decide

theorem witness_DecodeAndEncodeAgree : decode 0b111#3 = .stage .compare := by decide

theorem witness_StepRunsTheFetchedStage :
    (tinyAt 7).state = .busy ∧ decode (rom (tinyAt 7).stg) = .stage .compare ∧ (tinyAt 7).host = [] ∧
    ({ tinyAt 7 with host := [.wait] } : State).host = .wait :: [] ∧ (tinyAt 1).stg ≠ 0 ∧
    tinyDone.state ≠ .busy ∧ tinyDone.host = [] := by decide

theorem witness_HaltCodeIsNotExecuted :
    tinyDone.stg = 0 ∧ tinyDone.host = [] ∧ tinyDone.state ≠ .busy ∧
    (tinyAt 0).stg = 0 ∧ (tinyAt 0).host = [] ∧ (tinyAt 0).state = .busy := by decide

theorem witness_StartCommandBeginsARun :
    (∀ s ∈ [place tiny, tinyDone, tinyErr], s.state ≠ .busy ∧ s.initialised = true) ∧ 1 % 2 = 1 := by decide

theorem witness_HostWritesWhileBusyAreRefused : (tinyAt 1).state = .busy ∧ 14 < 15 ∧ 3 % 2 = 1 := by decide

theorem witness_ReadOnlyWritesAreIgnored : 16 ≤ 16 ∧ 2 % 2 = 0 := by decide

theorem witness_HostRegisterWriteIsReadBack : State.reset.state ≠ .busy ∧ 14 < 15 := by decide

/-- Writes below the length, at the length, and with no length written; a matrix with one dimension written. -/
theorem witness_HostElementWriteIsReadBack :
    tinyErr.state ≠ .busy ∧ hostReadCsr tinyErr BitSpace.ref.lengthCsr = some 3 ∧
    hostReadCsr tinyErr PatSpace.cilpat.lengthCsr = some 2 ∧
    hostReadCsr tinyErr MatSpace.crcgen.rowsCsr = some 2 ∧ hostReadCsr tinyErr MatSpace.crcgen.colsCsr = some 1 ∧
    State.reset.state ≠ .busy ∧ hostReadCsr State.reset BitSpace.ref.lengthCsr = none ∧
    hostReadCsr State.reset PatSpace.cilpat.lengthCsr = none ∧
    (let s := { State.reset with written := 0b000000001000000#15 }
     s.state ≠ .busy ∧ hostReadCsr s MatSpace.crcgen.rowsCsr = some 0 ∧
     hostReadCsr s MatSpace.crcgen.colsCsr = none) ∧
    (BitSpace.ref, 1) ≠ (BitSpace.ref, 2) := by decide

/-- The host's read of an element just written: below the length register it is the element (R65). -/
theorem test_host_read_below_length :
    (after (step { tinyErr with host := [.writeBit .ref 2 false] })).map (fun t => hostReadBit t .ref 2) =
      some (some false) := by decide

/-- At the length register there is no valid address (R60). -/
theorem test_host_read_at_length :
    (after (step { tinyErr with host := [.writeBit .ref 3 true] })).map (fun t => hostReadBit t .ref 3) =
      some none := by decide

theorem witness_ComputeCrcWritesParityBits :
    let s := tinyAt 1
    s.len.rowsCrcgen = s.len.info + 1 ∧ s.len.info = s.cfg.a ∧ s.len.rowsCrcgen = s.cfg.k ∧
    s.len.colsCrcgen = s.cfg.p ∧ (∀ i, i < s.cfg.a → (s.mem.bits .info).read i = some true) ∧
    (∀ i j, i < s.cfg.k → j < s.cfg.p → (s.mem.matrix .crcgen).read (i, j) = some true) := by
  refine ⟨by decide, by decide, by decide, by decide, by decide, fun i j hi hj => ?_⟩
  exact (by decide : ∀ i, i < 2 → ∀ j, j < 1 → ((tinyAt 1).mem.matrix .crcgen).read (i, j) = some true) i hi j hj

theorem witness_ScrambleMasksTheSuffix :
    let s := tinyAt 2
    s.len.rnti ≤ s.cfg.p ∧ s.valid.getLsbD 0 = true ∧ s.res.crc.length = s.cfg.p ∧
    (∀ i, i < s.len.rnti → (s.mem.bits .rnti).read i = some true) := by decide

theorem witness_InterleaveGathersByPattern :
    let s := tinyAt 3
    s.len.cilpat = s.cfg.a + s.cfg.p ∧ s.cfg.a ≤ s.len.info ∧
    (∀ i, i < s.cfg.a + s.cfg.p → (s.mem.entries .cilpat).read i = some (1 - i)) ∧
    (∀ i, i < s.cfg.a + s.cfg.p → 1 - i < s.cfg.a + s.cfg.p) ∧
    (∀ i i', i < i' → i' < s.cfg.a + s.cfg.p → 1 - i ≠ 1 - i') ∧
    (∀ i, i < s.cfg.a → (s.mem.bits .info).read i = some true) ∧
    s.valid.getLsbD 1 = true ∧ s.res.scr.length = s.cfg.p := by
  refine ⟨by decide, by decide, by decide, by decide, fun i i' h h' => ?_, by decide, by decide, by decide⟩
  have : i' < 2 := h'
  omega

theorem witness_MapFrozenFillsInPositionOrder :
    let s := tinyAt 4
    s.len.ibpat = s.cfg.n ∧ (∀ i, i < s.cfg.n → (s.mem.entries .ibpat).read i = some (2 - i)) ∧
    countRange s.cfg.n (fun i => decide (0 < 2 - i)) = s.cfg.a + s.cfg.p ∧
    s.valid.getLsbD 2 = true ∧ s.res.ilv.length = s.cfg.a + s.cfg.p := by decide

theorem witness_TransformMultipliesByTheMatrix :
    let s := tinyAt 5
    s.len.rowsEncgen = s.cfg.n ∧ s.len.colsEncgen = s.cfg.n ∧ s.valid.getLsbD 3 = true ∧
    s.res.frz.length = s.cfg.n ∧
    (∀ i j, i < s.cfg.n → j < s.cfg.n → (s.mem.matrix .encgen).read (i, j) = some (decide (j ≤ i))) := by
  refine ⟨by decide, by decide, by decide, by decide, fun i j hi hj => ?_⟩
  exact (by decide : ∀ i, i < 2 → ∀ j, j < 2 →
    ((tinyAt 5).mem.matrix .encgen).read (i, j) = some (decide (j ≤ i))) i hi j hj

theorem witness_RateMatchGathersByIndex :
    let s := tinyAt 6
    s.len.rmpat = s.cfg.e ∧ (∀ i, i < s.cfg.e → (s.mem.entries .rmpat).read i = some ((i + 1) % 2)) ∧
    (∀ i, i < s.cfg.e → (i + 1) % 2 < s.cfg.n) ∧ s.valid.getLsbD 4 = true ∧ s.res.enc.length = s.cfg.n := by
  decide

theorem witness_CompareCountsMismatchesAndCompletes :
    let s := tinyAt 7
    s.len.ref = s.cfg.e ∧ s.valid.getLsbD 5 = true ∧ s.res.rmo.length = s.cfg.e ∧
    (∀ i, i < s.cfg.e → (s.mem.bits .ref).read i = some (decide (i = 2))) := by decide

/-- Each of the four checks of R141 can fail alone. -/
theorem witness_ComputeCrcRaisesShapeError :
    (let s := atStage 1 { tiny with crcgen := matrix [[1]] 1, cfg := { tiny.cfg with k := 1 } } Results.noValue
     s.len.rowsCrcgen ≠ s.len.info + 1) ∧
    (let s := atStage 1 { tiny with cfg := { tiny.cfg with a := 2 } } Results.noValue; s.len.info ≠ s.cfg.a) ∧
    (let s := atStage 1 { tiny with cfg := { tiny.cfg with k := 3 } } Results.noValue; s.len.rowsCrcgen ≠ s.cfg.k) ∧
    (let s := atStage 1 { tiny with cfg := { tiny.cfg with p := 2 } } Results.noValue; s.len.colsCrcgen ≠ s.cfg.p) := by
  decide

theorem witness_ScrambleRaisesShapeError :
    (scrState [1, 0, 1, 1, 0, 0, 1]).cfg.p < (scrState [1, 0, 1, 1, 0, 0, 1]).len.rnti := by decide

theorem witness_InterleaveRaisesShapeThenIndexError :
    (ilvState [0, 1, 2, 3, 4]).len.cilpat ≠ (ilvState [0, 1, 2, 3, 4]).cfg.a + (ilvState [0, 1, 2, 3, 4]).cfg.p ∧
    (let s := ilvState [0, 1, 2, 3, 4, 6]
     s.len.cilpat = s.cfg.a + s.cfg.p ∧
     (∀ i, i < s.cfg.a + s.cfg.p → (s.mem.entries .cilpat).read i = some (if i = 5 then 6 else i)) ∧
     s.cfg.a + s.cfg.p ≤ (if 5 = 5 then 6 else 5)) ∧
    (let s := ilvState [0, 1, 2, 3, 3, 5]
     s.len.cilpat = s.cfg.a + s.cfg.p ∧
     (∀ i, i < s.cfg.a + s.cfg.p → (s.mem.entries .cilpat).read i = some (if i = 4 then 3 else i)) ∧
     (if 3 = 4 then 3 else 3) = (if 4 = 4 then 3 else 4)) := by decide

theorem witness_MapFrozenRaisesShapeError :
    (frzState 8 [0, 1] [1, 1]).len.ibpat ≠ (frzState 8 [0, 1] [1, 1]).cfg.n ∧
    (let s := frzState 2 [1] [1, 1]
     s.len.ibpat = s.cfg.n ∧ (∀ i, i < s.cfg.n → (s.mem.entries .ibpat).read i = some 1) ∧
     countRange s.cfg.n (fun _ => decide (0 < 1)) ≠ s.cfg.a + s.cfg.p) := by decide

theorem witness_TransformRaisesShapeError :
    (polState (matrix [[1, 0]] 2) 2 [1, 1]).len.rowsEncgen ≠ (polState (matrix [[1, 0]] 2) 2 [1, 1]).cfg.n ∧
    (polState (matrix [[1], [0]] 1) 2 [1, 1]).len.colsEncgen ≠ (polState (matrix [[1], [0]] 1) 2 [1, 1]).cfg.n := by
  decide

theorem witness_RateMatchRaisesShapeThenIndexError :
    (let s := { rmState [0, 1, 2] with cfg := { a := 0, p := 0, k := 0, e := 4, n := 8 } }; s.len.rmpat ≠ s.cfg.e) ∧
    (let s := rmState [8]
     s.len.rmpat = s.cfg.e ∧ (∀ i, i < s.cfg.e → (s.mem.entries .rmpat).read i = some 8) ∧
     (∃ i, i < s.cfg.e ∧ s.cfg.n ≤ 8)) := ⟨by decide, by decide, by decide, ⟨0, by decide⟩⟩

theorem witness_CompareRaisesShapeError : (cmpState [0, 1] [0]).len.ref ≠ (cmpState [0, 1] [0]).cfg.e := by decide

/-- The run on `tiny` with every flag taken away before a later stage. -/
def noFlags (k : Fin 8) : State := { tinyAt k with valid := 0#7 }

theorem witness_ReadingAResultWithoutValueStops :
    ((noFlags 2).len.rnti ≤ (noFlags 2).cfg.p ∧ (noFlags 2).valid.getLsbD 0 = false) ∧
    (let s := noFlags 3
     s.len.cilpat = s.cfg.a + s.cfg.p ∧ s.cfg.a ≤ s.len.info ∧
     (∀ i, i < s.cfg.a + s.cfg.p → (s.mem.entries .cilpat).read i = some (1 - i)) ∧
     (∀ i, i < s.cfg.a + s.cfg.p → 1 - i < s.cfg.a + s.cfg.p) ∧
     (∀ i i', i < i' → i' < s.cfg.a + s.cfg.p → 1 - i ≠ 1 - i') ∧
     (∀ i, i < s.cfg.a → (s.mem.bits .info).read i = some true) ∧ s.valid.getLsbD 1 = false) ∧
    (let s := noFlags 4
     s.len.ibpat = s.cfg.n ∧ (∀ i, i < s.cfg.n → (s.mem.entries .ibpat).read i = some (2 - i)) ∧
     countRange s.cfg.n (fun i => decide (0 < 2 - i)) = s.cfg.a + s.cfg.p ∧ s.valid.getLsbD 2 = false) ∧
    ((noFlags 5).len.rowsEncgen = (noFlags 5).cfg.n ∧ (noFlags 5).len.colsEncgen = (noFlags 5).cfg.n ∧
     (noFlags 5).valid.getLsbD 3 = false) ∧
    (let s := noFlags 6
     s.len.rmpat = s.cfg.e ∧ (∀ i, i < s.cfg.e → (s.mem.entries .rmpat).read i = some ((i + 1) % 2)) ∧
     (∀ i, i < s.cfg.e → (i + 1) % 2 < s.cfg.n) ∧ s.valid.getLsbD 4 = false) ∧
    ((noFlags 7).len.ref = (noFlags 7).cfg.e ∧ (noFlags 7).valid.getLsbD 5 = false) := by
  refine ⟨by decide, ⟨by decide, by decide, by decide, by decide, fun i i' h h' => ?_, by decide, by decide⟩,
    by decide, by decide, by decide, by decide⟩
  have : i' < 2 := h'
  omega

/-- The run on `tiny` with every operand element taken away. -/
def noElements (k : Fin 8) : State := { tinyAt k with mem := Memory.empty }

theorem witness_ReadingAnElementWithoutValueStops :
    (let s := noElements 1
     s.len.rowsCrcgen = s.len.info + 1 ∧ s.len.info = s.cfg.a ∧ s.len.rowsCrcgen = s.cfg.k ∧
     s.len.colsCrcgen = s.cfg.p ∧ 0 < s.cfg.a ∧ (s.mem.bits .info).read 0 = none) ∧
    (let s := { noElements 1 with mem := { Memory.empty with info := [(0, true)] } }
     s.len.rowsCrcgen = s.len.info + 1 ∧ s.len.info = s.cfg.a ∧ s.len.rowsCrcgen = s.cfg.k ∧
     s.len.colsCrcgen = s.cfg.p ∧ (∀ k, k < s.cfg.a → (s.mem.bits .info).read k = some true) ∧ 1 < s.cfg.k ∧
     0 < s.cfg.p ∧ (s.mem.matrix .crcgen).read (1, 0) = none) ∧
    (let s := noElements 2
     s.len.rnti ≤ s.cfg.p ∧ s.valid.getLsbD 0 = true ∧ s.res.crc.length = s.cfg.p ∧ 0 < s.len.rnti ∧
     (s.mem.bits .rnti).read 0 = none) ∧
    (let s := noElements 3
     s.len.cilpat = s.cfg.a + s.cfg.p ∧ 1 < s.cfg.a + s.cfg.p ∧ (s.mem.entries .cilpat).read 1 = none) ∧
    (let s := { noElements 3 with mem := { Memory.empty with cilpat := [(0, 1), (1, 0)] } }
     s.len.cilpat = s.cfg.a + s.cfg.p ∧ s.cfg.a ≤ s.len.info ∧
     (∀ k, k < s.cfg.a + s.cfg.p → (s.mem.entries .cilpat).read k = some (1 - k)) ∧
     (∀ k, k < s.cfg.a + s.cfg.p → 1 - k < s.cfg.a + s.cfg.p) ∧
     (∀ k', k' < s.cfg.a + s.cfg.p → ∀ k, k < k' → 1 - k ≠ 1 - k') ∧ 0 < s.cfg.a ∧
     (s.mem.bits .info).read 0 = none) ∧
    (let s := noElements 4
     s.len.ibpat = s.cfg.n ∧ 1 < s.cfg.n ∧ (s.mem.entries .ibpat).read 1 = none) ∧
    (let s := noElements 5
     s.len.rowsEncgen = s.cfg.n ∧ s.len.colsEncgen = s.cfg.n ∧ s.valid.getLsbD 3 = true ∧
     s.res.frz.length = s.cfg.n ∧ 1 < s.cfg.n ∧ 1 < s.cfg.n ∧ (s.mem.matrix .encgen).read (1, 1) = none) ∧
    (let s := noElements 6
     s.len.rmpat = s.cfg.e ∧ 2 < s.cfg.e ∧ (s.mem.entries .rmpat).read 2 = none) ∧
    (let s := noElements 7
     s.len.ref = s.cfg.e ∧ s.valid.getLsbD 5 = true ∧ s.res.rmo.length = s.cfg.e ∧ 2 < s.cfg.e ∧
     (s.mem.bits .ref).read 2 = none) := by decide

/-- The run on `tiny` with every result register emptied under its flag. -/
def noResults (k : Fin 8) : State := { tinyAt k with res := Results.noValue }

theorem witness_ReadingAWrongLengthStops :
    ((noResults 2).len.rnti ≤ (noResults 2).cfg.p ∧ (noResults 2).valid.getLsbD 0 = true ∧
     (noResults 2).res.crc.length ≠ (noResults 2).cfg.p) ∧
    (let s := noResults 3
     s.len.cilpat = s.cfg.a + s.cfg.p ∧
     (∀ i, i < s.cfg.a + s.cfg.p → (s.mem.entries .cilpat).read i = some (1 - i)) ∧
     (∀ i, i < s.cfg.a + s.cfg.p → 1 - i < s.cfg.a + s.cfg.p) ∧
     (∀ i', i' < s.cfg.a + s.cfg.p → ∀ i, i < i' → 1 - i ≠ 1 - i') ∧
     (let u := { s with len := { s.len with info := 0 } }; u.len.info < u.cfg.a) ∧
     s.cfg.a ≤ s.len.info ∧ (∀ i, i < s.cfg.a → (s.mem.bits .info).read i = some true) ∧
     s.valid.getLsbD 1 = true ∧ s.res.scr.length ≠ s.cfg.p) ∧
    (let s := noResults 4
     s.len.ibpat = s.cfg.n ∧ (∀ i, i < s.cfg.n → (s.mem.entries .ibpat).read i = some (2 - i)) ∧
     countRange s.cfg.n (fun i => decide (0 < 2 - i)) = s.cfg.a + s.cfg.p ∧ s.valid.getLsbD 2 = true ∧
     s.res.ilv.length ≠ s.cfg.a + s.cfg.p) ∧
    (let s := noResults 5
     s.len.rowsEncgen = s.cfg.n ∧ s.len.colsEncgen = s.cfg.n ∧ s.valid.getLsbD 3 = true ∧
     s.res.frz.length ≠ s.cfg.n) ∧
    (let s := noResults 6
     s.len.rmpat = s.cfg.e ∧ (∀ i, i < s.cfg.e → (s.mem.entries .rmpat).read i = some ((i + 1) % 2)) ∧
     (∀ i, i < s.cfg.e → (i + 1) % 2 < s.cfg.n) ∧ s.valid.getLsbD 4 = true ∧ s.res.enc.length ≠ s.cfg.n) ∧
    (let s := noResults 7
     s.len.ref = s.cfg.e ∧ s.valid.getLsbD 5 = true ∧ s.res.rmo.length ≠ s.cfg.e) := by decide

theorem witness_StagesWriteOnlyTheirOwnResult :
    exec .computeCrc (tinyAt 1) = .next (tinyAt 2) ∧
    exec .scramble (scrState [1, 0, 1, 1, 0, 0, 1]) =
      .next { scrState [1, 0, 1, 1, 0, 0, 1] with errKind := .shape, errStg := 2, state := .err } := ⟨rfl, rfl⟩

theorem witness_StageCompletesOrAborts :
    exec .compare (tinyAt 7) = .next tinyDone ∧
    exec .compare (cmpState [0, 1] [0]) =
      .next { cmpState [0, 1] [0] with errKind := .shape, errStg := 7, state := .err } := ⟨rfl, rfl⟩

theorem witness_EveryStepKeepsTheInvariant : (tinyAt 2).Inv ∧ step (tinyAt 2) = .next (tinyAt 3) :=
  ⟨by decide, rfl⟩

/-- A BUSY core whose host polls. -/
def polled (k : Fin 8) : State := { tinyAt k with host := [.wait, .wait] }

theorem witness_ARunNeverStops :
    (tinyAt 3).Inv ∧ (tinyAt 3).state = .busy ∧ (tinyAt 3).host = [] ∧
    (polled 3).Inv ∧ (polled 3).state = .busy ∧ (polled 3).host = .wait :: [.wait] := by decide

theorem witness_RunStateTransitions :
    (tinyAt 7).Inv ∧ step (tinyAt 7) = .next tinyDone ∧
    ({ tinyDone with host := [.reset] } : State).Inv ∧
    step { tinyDone with host := [.reset] } = .next State.reset ∧
    ({ tinyErr with host := [.writeCsr 15 1] } : State).Inv ∧
    step { tinyErr with host := [.writeCsr 15 1] } = .next (tinyAt 1) :=
  ⟨by decide, rfl, by decide, rfl, by decide, rfl⟩

theorem witness_StageCounterGoesStraight : (tinyAt 6).Inv ∧ step (tinyAt 6) = .next (tinyAt 7) :=
  ⟨by decide, rfl⟩

theorem witness_ResultsHaveTheirDeclaredLengths :
    (tinyAt 5).Inv ∧ (tinyAt 5).state = .busy ∧ step (tinyAt 5) = .next (tinyAt 6) ∧
    (polled 5).Inv ∧ (polled 5).state = .busy ∧ step (polled 5) = .next { tinyAt 6 with host := [.wait] } :=
  ⟨by decide, by decide, rfl, by decide, by decide, rfl⟩

theorem witness_RunComputesThePipelineFunction :
    (place tiny).state ≠ .busy ∧ (place tiny).written = BitVec.allOnes 15 ∧ (place tiny).runInput = some tiny := by
  decide

theorem witness_EveryRunEnds :
    (tinyAt 1).Inv ∧ (tinyAt 1).state = .busy ∧ (∀ a ∈ (tinyAt 1).host, a = .wait) ∧ (tinyAt 7).Inv ∧
    (polled 1).Inv ∧ (polled 1).state = .busy ∧ (∀ a ∈ (polled 1).host, a = .wait) := by decide

theorem witness_RunDependsOnItsInputsOnly :
    place tiny ≠ tinyDone ∧ (place tiny).state ≠ .busy ∧ tinyDone.state ≠ .busy ∧
    (place tiny).written = BitVec.allOnes 15 ∧ tinyDone.written = BitVec.allOnes 15 ∧
    (place tiny).runInput = some tiny ∧ tinyDone.runInput = some tiny := by decide

theorem witness_RateMatchedBitsIgnoreTheReference :
    pipelineRun tiny = .ok (bits [1, 0, 1], 1) ∧
    pipelineRun { tiny with ref := bits [1, 1, 1] } = .ok (bits [1, 0, 1], 1) ∧
    pipelineRun { tiny with rmpat := [2, 0, 1] } = .error (.index, 6) ∧ (6 : Fin 8) ≠ 7 :=
  ⟨rfl, rfl, rfl, by decide⟩

theorem witness_AnErrorDependsOnNoLaterOperand :
    pipelineRun { tiny with rnti := bits [1, 1] } = .error (.shape, 2) ∧
    agreeUpTo 2 { tiny with rnti := bits [1, 1] } { tiny with rnti := bits [1, 1], cilpat := [7], ref := [] } :=
  ⟨rfl, rfl, rfl, rfl, fun _ => rfl, by simp, by simp, by simp, by simp, by simp⟩

theorem witness_IndexErrorOnlyFromPatterns :
    pipelineRun { tiny with cilpat := [1, 1] } = .error (.index, 3) ∧
    pipelineRun { tiny with rmpat := [0, 0, 2] } = .error (.index, 6) := ⟨rfl, rfl⟩

theorem witness_CompletedRunFitsAdmittedWidths :
    InstanceParams.Admits { idxw := 2, rankw := 1, cntw := 2, lenw := 2, maxA := 1, maxP := 1, maxE := 3, maxN := 2 }
      tiny.cfg ∧ pipelineRun tiny = .ok (bits [1, 0, 1], 1) := ⟨by decide, rfl⟩

/-- Three columns with the last index, and no column. -/
theorem witness_VecmatIsParityOfTheSum :
    (bits [1, 0]).length = [bits [1, 1, 0], bits [0, 1, 1]].length ∧ 2 < 3 ∧
    (bits [1, 0]).length = [bits [], bits []].length := by decide

theorem witness_TransformIsLinear : (bits [1, 0]).length = (bits [1, 1]).length := by decide

theorem witness_TransformIdentityAndUnitVectors :
    1 < [bits [1, 0], bits [1, 1]].length ∧
    (∀ row ∈ [bits [1, 0], bits [1, 1]], row.length = [bits [1, 0], bits [1, 1]].length) := by decide

theorem witness_ComputeCrcIsAffine :
    (bits [1, 0]).length = (bits [1, 1]).length ∧ (bits [1, 0, 1]).length = 3 := by decide

theorem witness_ParityOfZeroBlockIsRowZero : (bits [1, 0, 1]).length = 3 := by decide

theorem witness_ScrambleIsAnInvolution : (bits [1, 1]).length ≤ (bits [1, 0, 1]).length := by decide

theorem witness_InterleaveRoundTrip :
    isPermutationOf [1, 2, 0] (bits [1, 0, 0]).length = true ∧ [2, 0, 1].length = (bits [1, 0, 0]).length ∧
    (∀ i, i < (bits [1, 0, 0]).length → [2, 0, 1].getD ([1, 2, 0].getD i 0) 0 = i) := by decide

theorem witness_InterleaveKeepsTheNumberOfOnes : isPermutationOf [1, 2, 0] (bits [1, 0, 0]).length = true := by
  decide

theorem witness_FrozenMappingIsReversible :
    positiveCount [5, 0, 1, 0, 0, 3] = (bits [1, 1, 0]).length ∧ (bits [1, 0, 1]).length = [5, 0, 1].length := by
  decide

theorem witness_OnlyPositivityOfRanksMatters :
    [5, 0, 1].length = [1, 0, 7].length ∧
    (∀ i, i < [5, 0, 1].length → (0 < [5, 0, 1].getD i 0 ↔ 0 < [1, 0, 7].getD i 0)) ∧
    [5, 0, 1].getD 1 0 = 0 ∧ positiveCount [5, 0, 1] = (bits [1, 0]).length := by decide

theorem witness_RateMatchIdentityAndXor :
    (bits [1, 0]).length = (bits [1, 1]).length ∧ (∀ v ∈ [1, 0, 1], v < (bits [1, 0]).length) := by decide

theorem witness_MismatchCountIsADistance :
    (bits [1, 0]).length = (bits [1, 1]).length ∧ (bits [1, 1]).length = (bits [0, 0]).length := by decide

end Sys2Proof.Tests
end

section
/-! PROOFS. The family of spec/00_scope.md: the widths that admit a configuration (R8) and the primitive
`gf2_vecmat` (R12).
The pipeline function is opened once, in `pipelineRun_eq_ok`. -/

namespace Sys2Proof.Machine

/-! ### When the pipeline function delivers a value -/

/-- A sequence of checks succeeds exactly if the first check holds and the rest succeeds. -/
theorem requireAt_bind_eq_ok {α : Type} {k : Fin 8} {c : Bool} {e : StageError}
    {f : Unit → Except (StageError × Fin 8) α} {a : α} :
    (requireAt k c e >>= f) = .ok a ↔ c = true ∧ f () = .ok a := by
  cases c
  · exact ⟨nofun, fun h => absurd h.1 Bool.false_ne_true⟩
  · exact (and_iff_right rfl).symm

/-- RateMatchedBits as the composition of the six stage functions, without the checks (R117). -/
def rateMatchedBits (x : RunInput) : List Bit :=
  let icb := x.info ++ scrambleBits (crcOf x.cfg.p x.info x.crcgen.rowList) x.rnti
  let frz := frozenOf x.ibpat (gather icb x.cilpat)
  gather (transformBits frz x.encgen.rowList) x.rmpat

/-- The loader's checks (R23, R272), one equation or bound each. -/
theorem runInput_wellFormed_iff (x : RunInput) :
    x.wellFormed = true ↔
      x.info.length = x.cfg.a ∧ (x.crcgen.rows = x.cfg.k ∧ x.crcgen.cols = x.cfg.p ∧ x.cfg.k = x.cfg.a + 1) ∧
      x.rnti.length ≤ x.cfg.p ∧
      (x.cilpat.length = x.cfg.a + x.cfg.p ∧ (∀ v ∈ x.cilpat, v < x.cfg.a + x.cfg.p) ∧ x.cilpat.Nodup) ∧
      (x.ibpat.length = x.cfg.n ∧ positiveCount x.ibpat = x.cfg.a + x.cfg.p) ∧
      (x.encgen.rows = x.cfg.n ∧ x.encgen.cols = x.cfg.n) ∧
      (x.rmpat.length = x.cfg.e ∧ ∀ v ∈ x.rmpat, v < x.cfg.n) ∧ x.ref.length = x.cfg.e := by
  simp only [RunInput.wellFormed, RunInput.infoOk, RunInput.crcgenOk, RunInput.rntiOk, RunInput.cilpatOk,
    isPermutationOf, RunInput.ibpatOk, RunInput.encgenOk, RunInput.rmpatOk, RunInput.refOk, positiveCount,
    Bool.and_eq_true, beq_iff_eq, decide_eq_true_eq, List.all_eq_true, and_assoc]

/-- The pipeline function delivers a value exactly on consistent input (R23, R272), and then this one (R117). -/
theorem pipelineRun_eq_ok {x : RunInput} {r : List Bit} {m : Nat} :
    pipelineRun x = .ok (r, m) ↔
      x.wellFormed = true ∧ rateMatchedBits x = r ∧ mismatchCount (rateMatchedBits x) x.ref = m := by
  rw [runInput_wellFormed_iff]
  simp only [pipelineRun, requireAt_bind_eq_ok, pure_ok, Except.ok.injEq, Prod.mk.injEq, beq_iff_eq,
    decide_eq_true_eq, inRange, noDuplicate, List.all_eq_true, and_assoc]
  constructor
  · rintro ⟨hinfoRows, hinfo, hrows, hcols, hrest⟩
    exact ⟨hinfo, hrows, hcols, by omega, hrest⟩
  · rintro ⟨hinfo, hrows, hcols, hk, hrest⟩
    exact ⟨by omega, hinfo, hrows, hcols, hrest⟩

/-! ### The widths that admit a configuration (R8) -/

/-- No more positions differ than the reference has (R212). -/
theorem mismatchCount_le_length (candidate reference : List Bit) :
    mismatchCount candidate reference ≤ reference.length :=
  calc mismatchCount candidate reference
      ≤ (xorBits candidate reference).length := List.count_le_length
    _ ≤ reference.length := by rw [xorBits_length]; exact Nat.min_le_right _ _

/-- Settles O46: completion means the patterns are in range and the reference has length E, and R8 bounds A+P, N and E
by the widths. -/
theorem completedRunFitsAdmittedWidths : Obligations.CompletedRunFitsAdmittedWidths := by
  intro x q r m hq hrun
  obtain ⟨hidx, -, hcnt, -⟩ := hq
  obtain ⟨hwf, -, rfl⟩ := pipelineRun_eq_ok.mp hrun
  obtain ⟨-, -, -, ⟨-, hcil, -⟩, -, -, ⟨-, hrm⟩, href⟩ := (runInput_wellFormed_iff x).mp hwf
  obtain ⟨hn, hap⟩ := max_lt_iff.mp hidx
  have hm : mismatchCount (rateMatchedBits x) x.ref ≤ x.cfg.e := href ▸ mismatchCount_le_length _ _
  exact ⟨hm, hm.trans_lt hcnt, fun v hv => (hcil v hv).trans hap, fun v hv => (hrm v hv).trans hn⟩

/-! ### The XOR of terms is the parity of their sum (R12) -/

/-- An indexed XOR is the parity of the number of its terms that are 1. -/
theorem xorRange_eq_parity (n : Nat) (f : Nat → Bit) : xorRange n f = decide (countRange n f % 2 = 1) := by
  induction n with
  | zero => rfl
  | succ n ih =>
    rw [xorRange, countRange, ih]
    cases f n
    · simp
    · rw [Bool.xor_true, ← decide_not, decide_eq_decide, if_pos rfl]
      omega

/-- Settles O47: the bits of a product are indexed XORs, and an indexed XOR is a parity. -/
theorem vecmatIsParityOfTheSum : Obligations.VecmatIsParityOfTheSum := by
  intro n v rows hlen
  refine ⟨gf2Vecmat_length n v rows, fun j hj => ?_⟩
  have hbit := gf2Vecmat_getElem? hlen hj
  exact ⟨hbit, by rw [hbit, xorRange_eq_parity]⟩

end Sys2Proof.Machine
end

section
/-! PROOFS. The family of spec/10_state.md: the invariant (R27 to R30, R113, R114, R270), the transitions of STATE and
STG, and the frame of the stage operations (R25, R66, R115). What a step does to the sequencer's registers is said
once, in `step_effect`. -/

namespace Sys2Proof.Machine

/-! ### What a step does to the sequencer's registers -/

/-- What one step from `s` does, seen from the sequencer: it runs a stage, it only takes an action off the host's list,
it writes what a core that is not BUSY lets the host write, it starts a run, or it resets the core. `rest` is what is
left of the host's list. -/
inductive StepEffect (s : State) : State → Prop
  | stage (rest : List HostAction) {i : Instr} {t : State} (busy : s.state = .busy) (number : i.number = s.stg)
      (runs : exec i { s with host := rest } = .next t) : StepEffect s t
  | ignored (rest : List HostAction) : StepEffect s { s with host := rest }
  | hostWrite {t : State} (notBusy : s.state ≠ .busy) (same : sameSequencer s t)
      (wf : s.mem.wf = true → t.mem.wf = true) : StepEffect s t
  | start {v : Nat} {rest : List HostAction} (action : s.host = .writeCsr 15 v :: rest) (bit0 : v % 2 = 1)
      (notBusy : s.state ≠ .busy) (init : s.initialised = true) : StepEffect s (startRun { s with host := rest })
  | reset {rest : List HostAction} (action : s.host = .reset :: rest) :
      StepEffect s (applyReset { s with host := rest })

/-- A write to a configuration or length register leaves the sequencer's registers alone. -/
theorem sameSequencer_csrAssign (s : State) (n v : Nat) (w : BitVec 15) (rest : List HostAction) :
    sameSequencer s { csrAssign { s with host := rest } n v with written := w } := by
  simp [sameSequencer]

/-- Every step is of one of these kinds. -/
theorem step_effect {s t : State} (h : step s = .next t) : StepEffect s t := by
  rcases step_next_cases h with ⟨u, hu, hb, i, hi, he⟩ | ⟨a, rest, hh, hcases⟩
  · rcases hu with rfl | ⟨rest, -, rfl⟩
    · exact .stage u.host hb hi he
    · exact .stage rest hb hi he
  · rcases hcases with ⟨n, v, -, -, hb, rfl⟩ | ⟨v, rfl, hv, hb, hin, rfl⟩ | ⟨sp, i, b, -, hb, rfl⟩ |
      ⟨sp, i, v, -, hb, rfl⟩ | ⟨sp, i, j, b, -, hb, rfl⟩ | ⟨rfl, rfl⟩ | ⟨-, rfl⟩
    · exact .hostWrite hb (sameSequencer_csrAssign s n v _ rest) (by simp)
    · exact .start hh hv hb hin
    · exact .hostWrite hb ⟨rfl, rfl, rfl, rfl, rfl, rfl⟩ (Memory.wf_writeBit · sp i b)
    · exact .hostWrite hb ⟨rfl, rfl, rfl, rfl, rfl, rfl⟩ (Memory.wf_writeEntry · sp i v)
    · exact .hostWrite hb ⟨rfl, rfl, rfl, rfl, rfl, rfl⟩ (Memory.wf_writeMatrix · sp i j b)
    · exact .reset hh
    · exact .ignored rest

/-! ### The invariant -/

/-- What the host is about to do is no part of the invariant. -/
theorem Inv_host {s : State} (hI : s.Inv) (rest : List HostAction) : State.Inv { s with host := rest } := hI

/-- While no run is in progress the invariant is about operand storage and the sequencer's registers only. -/
theorem Inv_of_sameSequencer {s t : State} (hI : s.Inv) (hb : s.state ≠ .busy) (same : sameSequencer s t)
    (hm : t.mem.wf = true) : t.Inv := by
  obtain ⟨-, hcoh, hno, -⟩ := hI
  obtain ⟨hres, hvalid, hstate, hstg, hkind, hestg⟩ := same
  refine ⟨hm, ?_, ?_, fun ht => absurd (hstate ▸ ht) hb⟩
  · rwa [State.coherent, hstate, hstg, hkind, hestg, hvalid]
  · rwa [State.noValueBehindClearFlags, hres, hvalid]

/-- Cleared results have nothing behind any flag. -/
theorem noValueBehindClearFlags_of_noValue {s : State} (h : s.res = Results.noValue) :
    s.noValueBehindClearFlags = true := by
  rw [noValueBehindClearFlags_iff, h]
  exact ⟨fun r _ => by cases r <;> rfl, fun _ => rfl⟩

/-- With no flag set there is no result whose length matters. -/
theorem lengthsOk_of_no_flags {s : State} (h : s.valid = 0#7) : s.lengthsOk = true := by
  rw [lengthsOk_iff, h]
  exact fun r hr => absurd (hasFlag_zero r.writer) (by simp [hr])

/-- A run starts at stage 1 with no flag set, so with no result to speak of. -/
theorem Inv_startRun {s : State} (hm : s.mem.wf = true) (hin : s.initialised = true) : (startRun s).Inv :=
  ⟨hm, rfl, noValueBehindClearFlags_of_noValue rfl, fun _ => ⟨hin, lengthsOk_of_no_flags rfl, by simp⟩⟩

/-- Reset empties the operand storage and the sequencer. -/
theorem Inv_applyReset (s : State) : (applyReset s).Inv :=
  ⟨Memory.wf_empty, rfl, noValueBehindClearFlags_of_noValue rfl, nofun⟩

/-- Settles O34, by the kinds of step; that a stage operation keeps the invariant is `exec_keeps_Inv`. -/
theorem everyStepKeepsTheInvariant : Obligations.EveryStepKeepsTheInvariant := by
  intro s t hI h
  have hm : s.mem.wf = true := hI.1
  cases step_effect h with
  | stage rest hb hi he => exact (exec_keeps_Inv (Inv_host hI rest) hb hi he).1
  | ignored rest => exact Inv_host hI rest
  | hostWrite hb same hwf => exact Inv_of_sameSequencer hI hb same (hwf hm)
  | @start _ rest _ _ _ hin => exact Inv_startRun (s := { s with host := rest }) hm hin
  | reset => exact Inv_applyReset _

/-- Settles O33: the state after reset is what applying reset gives. -/
theorem resetMeetsTheInvariant : Obligations.ResetMeetsTheInvariant := Inv_applyReset State.reset

/-! ### The transitions of STATE and STG -/

/-- In a run the flag of the stage about to run is clear (R27, R113). -/
theorem hasFlag_running {s : State} {i : Instr} (hI : s.Inv) (hb : s.state = .busy) (hi : i.number = s.stg) :
    hasFlag s.valid i = false := by
  obtain ⟨-, -, -, hv, -⟩ := Inv_busy hI hb
  rw [hv, hasFlag_flagsBelow, hi, decide_eq_false_iff_not]
  exact lt_irrefl _

/-- When stage 7 of a run succeeds, all seven flags are set (R114). -/
theorem setFlag_last {s : State} (hI : s.Inv) (hb : s.state = .busy) (h7 : Instr.compare.number = s.stg) :
    setFlag s.valid .compare = BitVec.allOnes 7 := by
  obtain ⟨-, -, -, hv, -⟩ := Inv_busy hI hb
  rw [hv, ← h7, setFlag_flagsBelow, if_pos rfl]

/-- An error always has a kind to record (R231). -/
theorem StageError.kind_ne_none (e : StageError) : e.kind ≠ .none := by cases e <;> exact nofun

/-- Settles O36, by the kinds of step; a stage operation changes STATE when it is stage 7 or raises an error. -/
theorem runStateTransitions : Obligations.RunStateTransitions := by
  intro s t hI h
  cases step_effect h with
  | @stage rest i _ hb hi he =>
    rcases exec_next_cases he with ⟨r', -, rfl⟩ | ⟨e, rfl⟩
    · by_cases hc : i = .compare
      · subst hc
        refine .inr (.inr (.inr (.inl ⟨by rw [finishStage_state, if_pos rfl], hb, hi.symm, ?_, ?_⟩)))
        · rw [finishStage_stg]; rfl
        · rw [finishStage_valid]; exact setFlag_last hI hb hi
      · exact .inl (by rw [finishStage_state, if_neg hc])
    · exact .inr (.inr (.inr (.inr ⟨rfl, hb, e.kind_ne_none, hi, rfl⟩)))
  | ignored => exact .inl rfl
  | hostWrite _ same =>
    obtain ⟨-, -, hstate, -⟩ := same
    exact .inl hstate
  | start hh hv hb => exact .inr (.inr (.inl ⟨rfl, hb, _, _, hh, hv⟩))
  | reset hh => exact .inr (.inl ⟨rfl, _, hh⟩)

/-- Settles O37, by the kinds of step; a stage operation moves STG exactly when it succeeds. -/
theorem stageCounterGoesStraight : Obligations.StageCounterGoesStraight := by
  intro s t hI h
  cases step_effect h with
  | @stage rest i _ hb hi he =>
    rcases exec_next_cases he with ⟨r', -, rfl⟩ | ⟨e, rfl⟩
    · have hclear := hasFlag_running hI hb hi
      have hset : hasFlag (setFlag s.valid i) i = true := by simp [hasFlag_setFlag]
      refine .inr (.inr (.inr ⟨hb, ?_, ?_, ?_⟩))
      · rw [finishStage_stg, hi]; exact Fin.val_add _ _
      · rwa [← hi]
      · rwa [finishStage_valid, ← hi]
    · exact .inl rfl
  | ignored => exact .inl rfl
  | hostWrite _ same =>
    obtain ⟨-, -, -, hstg, -⟩ := same
    exact .inl hstg
  | start hh hv hb => exact .inr (.inr (.inl ⟨rfl, hb, _, _, hh, hv⟩))
  | reset hh => exact .inr (.inl ⟨rfl, _, hh⟩)

/-! ### The frame of a stage operation -/

/-- Storage that stays reads as before. -/
theorem sameElements_of_mem {s t : State} (h : t.mem = s.mem) : sameElements s t := by
  simp [sameElements, h]

/-- Settles O31, by the two ways a stage operation gives a next state. -/
theorem stagesWriteOnlyTheirOwnResult : Obligations.StagesWriteOnlyTheirOwnResult := by
  intro i s t h
  rcases exec_next_cases h with ⟨r', hr, rfl⟩ | ⟨e, rfl⟩
  · refine ⟨by simp [sameHostSide], sameElements_of_mem (finishStage_mem ..), ?_, ?_, ?_, .inl (by simp)⟩
    · rw [finishStage_res]; exact hr.others
    · rw [finishStage_res]; exact hr.count
    · intro j hj
      have hflag : hasFlag (setFlag s.valid i) j = hasFlag s.valid j := by simp [hasFlag_setFlag, hj]
      rwa [finishStage_valid]
  · exact ⟨⟨rfl, rfl, rfl, rfl⟩, sameElements_of_mem rfl, fun _ _ => rfl, fun _ => rfl, fun _ _ => rfl,
      .inr ⟨rfl, rfl, rfl⟩⟩

end Sys2Proof.Machine
end

section
/-! PROOFS. The family of spec/10_state.md, the host's side: register reads and writes (R31, R32, R34), reads of results
(R27, R275) and of operand storage (R60, R65), what reset leaves (R35), and which input completes a run (R23, R272). -/

namespace Sys2Proof.Machine

/-! ### Register reads -/

/-- Registers 0 to 14 read their value if they have been written since reset (R35). -/
theorem hostReadCsr_of_lt {n : Nat} (s : State) (hn : n < 15) :
    hostReadCsr s n = if csrHolds s.written n then some (csrValue s n) else none := if_pos hn

/-- A reserved register number reads as no value (U8). -/
theorem hostReadCsr_reserved {n : Nat} (s : State) (hn : 22 ≤ n) : hostReadCsr s n = none := by
  unfold hostReadCsr
  rw [if_neg (by omega)]
  split
  case h_8 => rfl
  all_goals omega

/-- Registers 15 and up are the sequencer's: they read the same when its registers are the same (R32). -/
theorem hostReadCsr_of_sameSequencer {s t : State} (h : sameSequencer s t) {n : Nat} (hn : 15 ≤ n) :
    hostReadCsr t n = hostReadCsr s n := by
  obtain ⟨hres, hvalid, hstate, hstg, hkind, hestg⟩ := h
  simp only [hostReadCsr, if_neg (Nat.not_lt.mpr hn), hres, hvalid, hstate, hstg, hkind, hestg]

/-- Settles O4: one register at a time, and the reserved numbers. -/
theorem statusRegistersReadTheirCodes : Obligations.StatusRegistersReadTheirCodes := by
  intro s
  refine ⟨congrArg some ?_, rfl, congrArg some ?_, rfl, rfl, rfl, fun n hn => hostReadCsr_reserved s hn⟩
  · cases s.state <;> rfl
  · cases s.errKind <;> rfl

/-- A result register reads as no value while BUSY or with its flag 0 (R27, R32). -/
theorem hostReadResult_none {s : State} {r : BitReg} (i : Nat)
    (h : s.state = .busy ∨ hasFlag s.valid r.writer = false) : hostReadResult s r i = none := by
  rw [hostReadResult, if_neg]
  rcases h with h | h <;> simp [h]

/-- MMC reads as register 21 when its flag is set and the core is not BUSY (R275). -/
theorem hostReadCsr_mmc (s : State) :
    hostReadCsr s 21 = if s.state ≠ .busy ∧ hasFlag s.valid .compare then some s.res.mmc else none := rfl

/-- MMC reads as no value while BUSY or with its flag 0 (R275). -/
theorem hostReadCsr_mmc_none {s : State} (h : s.state = .busy ∨ hasFlag s.valid .compare = false) :
    hostReadCsr s 21 = none := by
  rw [hostReadCsr_mmc, if_neg]
  rcases h with h | h <;> simp [h]

/-- Settles O3: both reads are guarded by the flag and by STATE. -/
theorem resultReadsNeedFlagAndNotBusy : Obligations.ResultReadsNeedFlagAndNotBusy := by
  intro s r i
  exact ⟨hostReadResult_none i, fun hb hf => if_pos ⟨hb, hf⟩, hostReadCsr_mmc_none,
    fun hb hf => (hostReadCsr_mmc s).trans (if_pos ⟨hb, hf⟩)⟩

/-! ### Reads of operand storage -/

/-- An element of a bit-vector space reads below the length register as the host reads it (R60, R65). -/
theorem hostReadBit_eq_bind (s : State) (sp : BitSpace) (i : Nat) :
    hostReadBit s sp i =
      (hostReadCsr s sp.lengthCsr).bind fun n => if i < n then (s.mem.bits sp).read i else none := by
  rw [hostReadCsr_bits_length, hostReadBit]
  cases csrHolds s.written sp.lengthCsr <;> simp

theorem hostReadEntry_eq_bind (s : State) (sp : PatSpace) (i : Nat) :
    hostReadEntry s sp i =
      (hostReadCsr s sp.lengthCsr).bind fun n => if i < n then (s.mem.entries sp).read i else none := by
  rw [hostReadCsr_entries_length, hostReadEntry]
  cases csrHolds s.written sp.lengthCsr <;> simp

theorem hostReadMatrix_eq_bind (s : State) (sp : MatSpace) (i j : Nat) :
    hostReadMatrix s sp i j =
      (hostReadCsr s sp.rowsCsr).bind fun r => (hostReadCsr s sp.colsCsr).bind fun c =>
        if i < r ∧ j < c then (s.mem.matrix sp).read (i, j) else none := by
  rw [hostReadCsr_rows, hostReadCsr_cols, hostReadMatrix]
  cases csrHolds s.written sp.rowsCsr <;> cases csrHolds s.written sp.colsCsr <;> simp

/-- Settles O59: the three kinds of space, each at its length register numbers. -/
theorem hostReadsElementsBelowTheLength : Obligations.HostReadsElementsBelowTheLength := by
  intro s i j
  exact ⟨hostReadBit_eq_bind s .info i, hostReadMatrix_eq_bind s .crcgen i j, hostReadBit_eq_bind s .rnti i,
    hostReadEntry_eq_bind s .cilpat i, hostReadEntry_eq_bind s .ibpat i, hostReadMatrix_eq_bind s .encgen i j,
    hostReadEntry_eq_bind s .rmpat i, hostReadBit_eq_bind s .ref i⟩

/-! ### Register writes -/

/-- Marking register `n` as written marks no other (R35). -/
theorem csrHolds_csrMark (w : BitVec 15) {n : Nat} (hn : n < 15) (m : Nat) :
    csrHolds (csrMark w n) m = (decide (m = n) || csrHolds w m) := by
  rw [csrHolds, csrMark, BitVec.getLsbD_or, BitVec.getLsbD_twoPow, Bool.or_comm, csrHolds]
  congr 1
  simp [hn, eq_comm]

/-- A register holds the value assigned to it (R34). -/
theorem csrValue_csrAssign_same (s : State) {n : Nat} (hn : n < 15) (v : Nat) :
    csrValue (csrAssign s n v) n = v := by
  interval_cases n <;> rfl

/-- An assignment to a register leaves the value of every other (R34). -/
theorem csrValue_csrAssign_other (s : State) {n m : Nat} (h : m ≠ n) (v : Nat) :
    csrValue (csrAssign s n v) m = csrValue s m := by
  unfold csrAssign
  split
  case h_16 => rfl
  all_goals
    unfold csrValue
    split <;> first | rfl | exact absurd rfl h

/-- What registers 0 to 14 read after a write to register `n`: it holds the value, the others what they held. -/
theorem hostReadCsr_csrAssign (s : State) {n m : Nat} (hn : n < 15) (hm : m < 15) (v : Nat) :
    hostReadCsr { csrAssign s n v with written := csrMark s.written n } m =
      if m = n then some v else hostReadCsr s m := by
  have hval : csrValue { csrAssign s n v with written := csrMark s.written n } m = csrValue (csrAssign s n v) m := rfl
  rw [hostReadCsr_of_lt _ hm, hostReadCsr_of_lt _ hm, hval, csrHolds_csrMark _ hn]
  by_cases h : m = n
  · subst h; simp [csrValue_csrAssign_same s hn]
  · simp [h, csrValue_csrAssign_other s h]

/-- A write to register 0 to 14 of a core that is not BUSY (R32, R34). -/
theorem writeCsr_of_lt {s : State} (hb : s.state ≠ .busy) {n : Nat} (hn : n < 15) (v : Nat) :
    writeCsr n v s = .next { csrAssign s n v with written := csrMark s.written n } := by
  rw [writeCsr, if_pos hn, if_neg hb]

/-- Settles O12: the register written now holds the value, the others hold what they held. -/
theorem hostRegisterWriteIsReadBack : Obligations.HostRegisterWriteIsReadBack := by
  intro s n v hb hn
  have same : sameSequencer s { csrAssign s n v with written := csrMark s.written n } :=
    sameSequencer_csrAssign s n v _ s.host
  refine ⟨_, writeCsr_of_lt hb hn v, ?_, fun m hm => ?_, sameElements_of_mem (csrAssign_mem ..), same,
    csrAssign_host ..⟩
  · rw [hostReadCsr_csrAssign s hn hn, if_pos rfl]
  · by_cases hm15 : m < 15
    · rw [hostReadCsr_csrAssign s hn hm15, if_neg hm]
    · exact hostReadCsr_of_sameSequencer same (Nat.not_lt.mp hm15)

/-- A write to CTRL with bit 0 clear does nothing (R31). -/
theorem writeCtrl_of_even {v : Nat} (s : State) (hv : v % 2 = 0) : writeCtrl v s = .next s := by
  rw [writeCtrl, if_neg (by omega)]

/-- Settles O11, by the register number. -/
theorem readOnlyWritesAreIgnored : Obligations.ReadOnlyWritesAreIgnored := by
  intro s
  refine ⟨fun n v hn => ?_, fun _ _ _ => rfl, fun v hv => writeCtrl_of_even s hv⟩
  change writeCsr n v s = .next s
  rw [writeCsr, if_neg (by omega), if_neg (by omega)]

/-! ### Reset -/

/-- After reset no operand element holds a value (R35). -/
theorem reset_holds_no_element :
    (∀ sp i, (State.reset.mem.bits sp).read i = none) ∧ (∀ sp i, (State.reset.mem.entries sp).read i = none) ∧
      ∀ sp i j, (State.reset.mem.matrix sp).read (i, j) = none :=
  ⟨fun sp _ => by cases sp <;> rfl, fun sp _ => by cases sp <;> rfl, fun sp _ _ => by cases sp <;> rfl⟩

/-- A register that has not been written reads as no value (R35). -/
theorem hostReadCsr_not_written {s : State} {n : Nat} (hn : n < 15) (h : csrHolds s.written n = false) :
    hostReadCsr s n = none := by
  rw [hostReadCsr_of_lt s hn, h]; rfl

/-- A core some register or some operand element of which has not been written is not ready for a run (R271). -/
theorem initialised_eq_false {s : State}
    (h : (∃ n, n < 15 ∧ csrHolds s.written n = false) ∨ s.runInput = none) : s.initialised = false := by
  rw [State.initialised, Bool.and_eq_false_iff]
  rcases h with ⟨n, hn, hw⟩ | hx
  · refine .inl (beq_eq_false_iff_ne.mpr fun hall => ?_)
    rw [hall, csrHolds, BitVec.getLsbD_allOnes, decide_eq_false_iff_not] at hw
    exact hw hn
  · exact .inr (by rw [hx]; rfl)

/-- The start command is refused while something a run may read has not been written (R112, R35). -/
theorem writeCtrl_not_initialised {s : State} {v : Nat} (hb : s.state ≠ .busy) (hv : v % 2 = 1)
    (h : s.initialised = false) : writeCtrl v s = .refused .startBeforeInitialised := by
  simp [writeCtrl, hv, hb, h]

/-- Settles O1: what the cleared fields read as, and what an unwritten register means for a read and for the start. -/
theorem resetHoldsNoValueAndNoRun : Obligations.ResetHoldsNoValueAndNoRun := by
  obtain ⟨hbits, hentries, hmatrix⟩ := reset_holds_no_element
  have hw (n : Nat) : csrHolds State.reset.written n = false := BitVec.getLsbD_zero
  exact ⟨rfl, rfl, rfl, rfl, rfl, rfl, fun n hn => hostReadCsr_not_written hn (hw n),
    hostReadCsr_mmc_none (.inr (hasFlag_zero _)), fun r i => hostReadResult_none i (.inr (hasFlag_zero _)),
    hbits, hentries, hmatrix, fun sp i => hostReadBit_eq_none (.inl (hw _)),
    fun sp i => hostReadEntry_eq_none (.inl (hw _)), fun sp i j => hostReadMatrix_eq_none (.inl (hw _)),
    fun s n hn h => hostReadCsr_not_written hn h,
    fun s v hb hv h => writeCtrl_not_initialised hb hv (initialised_eq_false h)⟩

/-! ### The run function -/

/-- Settles O43, from when the pipeline function delivers a value. -/
theorem runCompletesExactlyOnConsistentInput : Obligations.RunCompletesExactlyOnConsistentInput := by
  intro x
  constructor
  · rintro ⟨r, m, h⟩
    exact (pipelineRun_eq_ok.mp h).1
  · intro hwf
    exact ⟨_, _, pipelineRun_eq_ok.mpr ⟨hwf, rfl, rfl⟩⟩

end Sys2Proof.Machine
end

section
/-! PROOFS. The family of spec/10_state.md, what a stage does that finds no value behind a read (R27, R32, R35). A stage
whose checks pass is what its `_of_checks` lemma says: its remaining reads, then its function. -/

namespace Sys2Proof.Machine

/-! ### Reads that deliver -/

theorem readBits_of_reads {sp : BitSpace} {n : Nat} {s : State} {f : Nat → Bit} (hn : n ≤ s.len.bits sp)
    (h : ∀ i, i < n → (s.mem.bits sp).read i = some (f i)) : readBits sp n s = .ok ((List.range n).map f) :=
  readBits_eq_ok.mpr ⟨hn, firstN_of_reads h⟩

theorem readResult_valid {r : BitReg} {n : Nat} {s : State} (hv : hasFlag s.valid r.writer = true)
    (hlen : (s.res.bits r).length = n) : readResult r n s = .ok (s.res.bits r) :=
  readResult_eq_ok.mpr ⟨hv, hlen, rfl⟩

theorem readEntries_of_reads {sp : PatSpace} {n : Nat} {s : State} {f : Nat → Nat} (hn : n ≤ s.len.entries sp)
    (h : ∀ i, i < n → (s.mem.entries sp).read i = some (f i)) : readEntries sp n s = .ok ((List.range n).map f) :=
  readEntries_eq_ok.mpr ⟨hn, firstN_of_reads h⟩

/-- A pattern given by its entries passes the range check of R162 and R201. -/
theorem inRange_map_range {n bound : Nat} {f : Nat → Nat} (h : ∀ i, i < n → f i < bound) :
    inRange ((List.range n).map f) bound = true := by
  simpa [inRange] using h

/-! ### Stages whose checks pass -/

section Checks
variable {s : State}

theorem stage1_of_checks (hk : s.len.rowsCrcgen = s.len.info + 1) (ha : s.len.info = s.cfg.a)
    (hrows : s.len.rowsCrcgen = s.cfg.k) (hcols : s.len.colsCrcgen = s.cfg.p) :
    stage1 s = (do
      let info ← readBits .info s.cfg.a s
      let rows ← readMatrix .crcgen s.cfg.k s.cfg.p s
      return crcOf s.cfg.p info rows) := by
  rw [← ha, ← hrows, ← hcols]
  simp [stage1, hk, ha, ← hrows, hcols]

theorem stage2_of_checks (h : s.len.rnti ≤ s.cfg.p) :
    stage2 s = (do
      let crc ← readResult .crc s.cfg.p s
      let rnti ← readBits .rnti s.len.rnti s
      return scrambleBits crc rnti) := by
  simp [stage2, h]

theorem stage3_of_checks {pat : Nat → Nat} (hlen : s.len.cilpat = s.cfg.a + s.cfg.p)
    (hread : ∀ i, i < s.cfg.a + s.cfg.p → (s.mem.entries .cilpat).read i = some (pat i))
    (hrange : ∀ i, i < s.cfg.a + s.cfg.p → pat i < s.cfg.a + s.cfg.p)
    (hdistinct : ∀ i i', i < i' → i' < s.cfg.a + s.cfg.p → pat i ≠ pat i') :
    stage3 s = (do
      let icb ← readIcb s
      return gather icb ((List.range (s.cfg.a + s.cfg.p)).map pat)) := by
  have hpat : readEntries .cilpat (s.cfg.a + s.cfg.p) s = .ok _ := readEntries_of_reads hlen.ge hread
  have hnodup := nodup_map_range hdistinct
  simp [stage3, hlen, hpat, inRange_map_range hrange, noDuplicate, hnodup]

theorem stage4_of_checks {rank : Nat → Nat} (hlen : s.len.ibpat = s.cfg.n)
    (hread : ∀ i, i < s.cfg.n → (s.mem.entries .ibpat).read i = some (rank i))
    (hcount : countRange s.cfg.n (fun i => decide (0 < rank i)) = s.cfg.a + s.cfg.p) :
    stage4 s = (do
      let bits ← readResult .ilv (s.cfg.a + s.cfg.p) s
      return frozenOf ((List.range s.cfg.n).map rank) bits) := by
  have hranks : readEntries .ibpat s.cfg.n s = .ok _ := readEntries_of_reads hlen.ge hread
  have hpos : positiveCount ((List.range s.cfg.n).map rank) = s.cfg.a + s.cfg.p :=
    (countP_map_range _ _ _).trans hcount
  simp [stage4, hlen, hranks, hpos]

theorem stage5_of_checks (hrows : s.len.rowsEncgen = s.cfg.n) (hcols : s.len.colsEncgen = s.cfg.n) :
    stage5 s = (do
      let frozen ← readResult .frz s.cfg.n s
      let rows ← readMatrix .encgen s.cfg.n s.cfg.n s
      return transformBits frozen rows) := by
  simp [stage5, hrows, hcols]

theorem stage6_of_checks {pat : Nat → Nat} (hlen : s.len.rmpat = s.cfg.e)
    (hread : ∀ i, i < s.cfg.e → (s.mem.entries .rmpat).read i = some (pat i))
    (hrange : ∀ i, i < s.cfg.e → pat i < s.cfg.n) :
    stage6 s = (do
      let enc ← readResult .enc s.cfg.n s
      return gather enc ((List.range s.cfg.e).map pat)) := by
  have hpat : readEntries .rmpat s.cfg.e s = .ok _ := readEntries_of_reads hlen.ge hread
  simp [stage6, hlen, hpat, inRange_map_range hrange]

theorem stage7_of_checks (h : s.len.ref = s.cfg.e) :
    stage7 s = (do
      let candidate ← readResult .rmo s.cfg.e s
      let reference ← readBits .ref s.cfg.e s
      return mismatchCount candidate reference) := by
  simp [stage7, h]

end Checks

/-! ### The operation of each stage

Which stage function `exec` concludes, and in which result register its value goes (R25, R92). -/

section Dispatch
variable (s : State)

theorem exec_computeCrc :
    exec .computeCrc s = concludeStage .computeCrc (fun v r => { r with crc := v }) (stage1 s) s := rfl

theorem exec_scramble :
    exec .scramble s = concludeStage .scramble (fun v r => { r with scr := v }) (stage2 s) s := rfl

theorem exec_interleave :
    exec .interleave s = concludeStage .interleave (fun v r => { r with ilv := v }) (stage3 s) s := rfl

theorem exec_mapFrozen :
    exec .mapFrozen s = concludeStage .mapFrozen (fun v r => { r with frz := v }) (stage4 s) s := rfl

theorem exec_transform :
    exec .transform s = concludeStage .transform (fun v r => { r with enc := v }) (stage5 s) s := rfl

theorem exec_rateMatch :
    exec .rateMatch s = concludeStage .rateMatch (fun v r => { r with rmo := v }) (stage6 s) s := rfl

theorem exec_compare :
    exec .compare s = concludeStage .compare (fun v r => { r with mmc := v }) (stage7 s) s := rfl

end Dispatch

/-! ### Stages that stop -/

/-- A stage that makes an access the spec forbids stops the model. -/
@[simp] theorem concludeStage_fault {α : Type} (i : Instr) (store : α → Results → Results) (f : Fault) (s : State) :
    concludeStage i store (.error (.fault f)) s = .fault f := rfl

/-- It stops at the first such access, whatever it would do next. -/
theorem concludeStage_fault_bind {α β : Type} (i : Instr) (store : α → Results → Results) (f : Fault)
    (next : β → Except Stop α) (s : State) :
    concludeStage i store (.error (.fault f) >>= next) s = .fault f := rfl

/-- ICB stops where INFO does (R26). -/
theorem readIcb_of_info_error {s : State} {e : Stop} (h : readBits .info s.cfg.a s = .error e) :
    readIcb s = .error e := by
  rw [readIcb, h]

/-- With INFO read, ICB stops where SCR does (R26). -/
theorem readIcb_of_scr_error {s : State} {info : List Bit} {e : Stop} (hinfo : readBits .info s.cfg.a s = .ok info)
    (h : readResult .scr s.cfg.p s = .error e) : readIcb s = .error e := by
  rw [readIcb, hinfo, h]

/-- Settles O28, stage by stage: the checks pass, then the read of the result register stops. -/
theorem readingAResultWithoutValueStops : Obligations.ReadingAResultWithoutValueStops := by
  intro s
  refine ⟨fun hle hv => ?_, fun pat info hlen ha hread hrange hdistinct hinfo hv => ?_,
    fun rank hlen hread hcount hv => ?_, fun hrows hcols hv => ?_, fun pat hlen hread hrange hv => ?_,
    fun hlen hv => ?_⟩
  · rw [exec_scramble, stage2_of_checks hle, readResult_invalid (r := .crc) hv, concludeStage_fault_bind]
  · have hscr := readIcb_of_scr_error (readBits_of_reads ha hinfo) (readResult_invalid (r := .scr) hv)
    rw [exec_interleave, stage3_of_checks hlen hread hrange hdistinct, hscr, concludeStage_fault_bind]
  · rw [exec_mapFrozen, stage4_of_checks hlen hread hcount, readResult_invalid (r := .ilv) hv, concludeStage_fault_bind]
  · rw [exec_transform, stage5_of_checks hrows hcols, readResult_invalid (r := .frz) hv, concludeStage_fault_bind]
  · rw [exec_rateMatch, stage6_of_checks hlen hread hrange, readResult_invalid (r := .enc) hv, concludeStage_fault_bind]
  · rw [exec_compare, stage7_of_checks hlen, readResult_invalid (r := .rmo) hv, concludeStage_fault_bind]

/-- Settles O29, operand by operand: the checks pass, what is read before is there, then the read of the operand
stops. -/
theorem readingAnElementWithoutValueStops : Obligations.ReadingAnElementWithoutValueStops := by
  intro s i j
  refine ⟨fun hk ha hrows hcols hi hnone => ?_, fun info hk ha hrows hcols hinfo hi hj hnone => ?_,
    fun hle hv hcrc hi hnone => ?_, fun hlen hi hnone => ?_,
    fun pat hlen ha hread hrange hdistinct hi hnone => ?_, fun hlen hi hnone => ?_,
    fun hrows hcols hv hfrz hi hj hnone => ?_, fun hlen hi hnone => ?_, fun hlen hv hrmo hi hnone => ?_⟩
  · rw [exec_computeCrc, stage1_of_checks hk ha hrows hcols, readBits_none (sp := .info) ha.ge hi hnone,
      concludeStage_fault_bind]
  · rw [exec_computeCrc, stage1_of_checks hk ha hrows hcols, readBits_of_reads ha.ge hinfo, ok_bind,
      readMatrix_none (sp := .crcgen) hrows.ge hcols.ge hi hj hnone, concludeStage_fault_bind]
  · rw [exec_scramble, stage2_of_checks hle, readResult_valid (r := .crc) hv hcrc, ok_bind,
      readBits_none (sp := .rnti) (n := s.len.rnti) le_rfl hi hnone, concludeStage_fault_bind]
  · have hstop := readEntries_none (sp := .cilpat) hlen.ge hi hnone
    simp [exec_interleave, stage3, hlen, hstop]
  · have hicb := readIcb_of_info_error (readBits_none (sp := .info) ha hi hnone)
    rw [exec_interleave, stage3_of_checks hlen hread hrange hdistinct, hicb, concludeStage_fault_bind]
  · have hstop := readEntries_none (sp := .ibpat) hlen.ge hi hnone
    simp [exec_mapFrozen, stage4, hlen, hstop]
  · rw [exec_transform, stage5_of_checks hrows hcols, readResult_valid (r := .frz) hv hfrz, ok_bind,
      readMatrix_none (sp := .encgen) hrows.ge hcols.ge hi hj hnone, concludeStage_fault_bind]
  · have hstop := readEntries_none (sp := .rmpat) hlen.ge hi hnone
    simp [exec_rateMatch, stage6, hlen, hstop]
  · rw [exec_compare, stage7_of_checks hlen, readResult_valid (r := .rmo) hv hrmo, ok_bind,
      readBits_none (sp := .ref) hlen.ge hi hnone, concludeStage_fault_bind]

end Sys2Proof.Machine
end

section
/-! PROOFS. The family of spec/20_memory.md: a host write of one operand element, what it changes and what it leaves
(R32, R60, R62, R65), and the stages that meet a register of the wrong length (R64, R111, R120). -/

namespace Sys2Proof.Machine

/-! ### What the host reads depends on one element of storage -/

section Reads
variable {s : State} {m : Memory}

theorem hostReadBit_of_read_eq {sp : BitSpace} {i : Nat} (h : (m.bits sp).read i = (s.mem.bits sp).read i) :
    hostReadBit { s with mem := m } sp i = hostReadBit s sp i := by
  simp only [hostReadBit, h]

theorem hostReadEntry_of_read_eq {sp : PatSpace} {i : Nat}
    (h : (m.entries sp).read i = (s.mem.entries sp).read i) :
    hostReadEntry { s with mem := m } sp i = hostReadEntry s sp i := by
  simp only [hostReadEntry, h]

theorem hostReadMatrix_of_read_eq {sp : MatSpace} {i j : Nat}
    (h : (m.matrix sp).read (i, j) = (s.mem.matrix sp).read (i, j)) :
    hostReadMatrix { s with mem := m } sp i j = hostReadMatrix s sp i j := by
  simp only [hostReadMatrix, h]

/-- Below its length register, an element that holds a value is what the host reads (R60, R65). -/
theorem hostReadBit_of_read {sp : BitSpace} {i : Nat} {b : Bit} (h : (m.bits sp).read i = some b) :
    hostReadBit { s with mem := m } sp i =
      (hostReadCsr s sp.lengthCsr).bind fun n => if i < n then some b else none :=
  h ▸ hostReadBit_eq_bind { s with mem := m } sp i

theorem hostReadEntry_of_read {sp : PatSpace} {i v : Nat} (h : (m.entries sp).read i = some v) :
    hostReadEntry { s with mem := m } sp i =
      (hostReadCsr s sp.lengthCsr).bind fun n => if i < n then some v else none :=
  h ▸ hostReadEntry_eq_bind { s with mem := m } sp i

theorem hostReadMatrix_of_read {sp : MatSpace} {i j : Nat} {b : Bit} (h : (m.matrix sp).read (i, j) = some b) :
    hostReadMatrix { s with mem := m } sp i j =
      (hostReadCsr s sp.rowsCsr).bind fun r => (hostReadCsr s sp.colsCsr).bind fun c =>
        if i < r ∧ j < c then some b else none :=
  h ▸ hostReadMatrix_eq_bind { s with mem := m } sp i j

end Reads

/-! ### The element written, and every other -/

section Writes
variable (m : Memory)

theorem Memory.read_writeBit_same (sp : BitSpace) (i : Nat) (b : Bit) :
    ((m.writeBit sp i b).bits sp).read i = some b := by
  rw [Memory.read_writeBit, if_pos ⟨rfl, rfl⟩]

theorem Memory.read_writeBit_other {sp sp' : BitSpace} {i i' : Nat} (b : Bit) (h : (sp', i') ≠ (sp, i)) :
    ((m.writeBit sp i b).bits sp').read i' = (m.bits sp').read i' := by
  rw [Memory.read_writeBit, if_neg fun ⟨hsp, hi⟩ => h (Prod.ext hsp hi)]

theorem Memory.read_writeEntry_same (sp : PatSpace) (i v : Nat) :
    ((m.writeEntry sp i v).entries sp).read i = some v := by
  rw [Memory.read_writeEntry, if_pos ⟨rfl, rfl⟩]

theorem Memory.read_writeEntry_other {sp sp' : PatSpace} {i i' : Nat} (v : Nat) (h : (sp', i') ≠ (sp, i)) :
    ((m.writeEntry sp i v).entries sp').read i' = (m.entries sp').read i' := by
  rw [Memory.read_writeEntry, if_neg fun ⟨hsp, hi⟩ => h (Prod.ext hsp hi)]

theorem Memory.read_writeMatrix_same (sp : MatSpace) (i j : Nat) (b : Bit) :
    ((m.writeMatrix sp i j b).matrix sp).read (i, j) = some b := by
  rw [Memory.read_writeMatrix m sp sp (i, j), if_pos ⟨rfl, rfl⟩]

theorem Memory.read_writeMatrix_other {sp sp' : MatSpace} {i j i' j' : Nat} (b : Bit)
    (h : (sp', i', j') ≠ (sp, i, j)) :
    ((m.writeMatrix sp i j b).matrix sp').read (i', j') = (m.matrix sp').read (i', j') := by
  rw [Memory.read_writeMatrix m sp sp' (i, j), if_neg fun ⟨hsp, hij⟩ => h (Prod.ext hsp hij)]

end Writes

/-- A core that is not BUSY takes a host write of operand storage (R32). -/
theorem writeOperand_of_not_busy {s : State} (hb : s.state ≠ .busy) (m : Memory) :
    writeOperand m s = .next { s with mem := m } := if_neg hb

/-- Operand storage is no part of what else the host writes, nor of the sequencer's registers. -/
theorem sameHostSide_mem (s : State) (m : Memory) : sameHostSide s { s with mem := m } := ⟨rfl, rfl, rfl, rfl⟩

theorem sameSequencer_mem (s : State) (m : Memory) : sameSequencer s { s with mem := m } :=
  ⟨rfl, rfl, rfl, rfl, rfl, rfl⟩

/-- Settles O13, one kind of space at a time: the element written and the other elements of its kind by the read after a
write, the two other kinds because their storage is the same. -/
theorem hostElementWriteIsReadBack : Obligations.HostElementWriteIsReadBack := by
  intro s hb
  refine ⟨fun sp i b => ?_, fun sp i v => ?_, fun sp i j b => ?_⟩
  · have held := s.mem.read_writeBit_same sp i b
    have entries := s.mem.writeBit_entries sp i b
    have matrix := s.mem.writeBit_matrix sp i b
    refine ⟨_, writeOperand_of_not_busy hb _, held, fun hnone => ?_, fun n hn => ?_,
      fun _ _ hne => s.mem.read_writeBit_other b hne,
      fun _ _ hne => hostReadBit_of_read_eq (s.mem.read_writeBit_other b hne),
      fun _ _ => hostReadEntry_of_read_eq (by rw [entries]), fun _ _ _ => hostReadMatrix_of_read_eq (by rw [matrix]),
      fun _ _ => by rw [entries], fun _ _ _ => by rw [matrix], sameHostSide_mem s _, sameSequencer_mem s _⟩
    · rw [hostReadBit_of_read held, hnone, Option.bind_none]
    · rw [hostReadBit_of_read held, hn, Option.bind_some]
  · have held := s.mem.read_writeEntry_same sp i v
    have bits := s.mem.writeEntry_bits sp i v
    have matrix := s.mem.writeEntry_matrix sp i v
    refine ⟨_, writeOperand_of_not_busy hb _, held, fun hnone => ?_, fun n hn => ?_,
      fun _ _ hne => s.mem.read_writeEntry_other v hne,
      fun _ _ hne => hostReadEntry_of_read_eq (s.mem.read_writeEntry_other v hne),
      fun _ _ => hostReadBit_of_read_eq (by rw [bits]), fun _ _ _ => hostReadMatrix_of_read_eq (by rw [matrix]),
      fun _ _ => by rw [bits], fun _ _ _ => by rw [matrix], sameHostSide_mem s _, sameSequencer_mem s _⟩
    · rw [hostReadEntry_of_read held, hnone, Option.bind_none]
    · rw [hostReadEntry_of_read held, hn, Option.bind_some]
  · have held := s.mem.read_writeMatrix_same sp i j b
    have bits := s.mem.writeMatrix_bits sp i j b
    have entries := s.mem.writeMatrix_entries sp i j b
    refine ⟨_, writeOperand_of_not_busy hb _, held, fun hnone => ?_, fun r c hr hc => ?_,
      fun _ _ _ hne => s.mem.read_writeMatrix_other b hne,
      fun _ _ _ hne => hostReadMatrix_of_read_eq (s.mem.read_writeMatrix_other b hne),
      fun _ _ => hostReadBit_of_read_eq (by rw [bits]), fun _ _ => hostReadEntry_of_read_eq (by rw [entries]),
      fun _ _ => by rw [bits], fun _ _ => by rw [entries], sameHostSide_mem s _, sameSequencer_mem s _⟩
    · rw [hostReadMatrix_of_read held]
      rcases hnone with hrows | hcols
      · rw [hrows, Option.bind_none]
      · rw [hcols]; exact Option.bind_fun_none _
    · rw [hostReadMatrix_of_read held, hr, hc, Option.bind_some, Option.bind_some]

/-! ### Stages that meet a wrong length -/

/-- Settles O30, stage by stage: the checks pass, then the read of the result register, or of INFO in stage 3, stops. -/
theorem readingAWrongLengthStops : Obligations.ReadingAWrongLengthStops := by
  intro s
  refine ⟨fun hle hv hcrc => ?_,
    fun pat hlen hread hrange hdistinct => ⟨fun hinfo => ?_, fun info ha hinfo hv hscr => ?_⟩,
    fun rank hlen hread hcount hv hilv => ?_, fun hrows hcols hv hfrz => ?_,
    fun pat hlen hread hrange hv henc => ?_, fun hlen hv hrmo => ?_⟩
  · rw [exec_scramble, stage2_of_checks hle, readResult_wrongLength (r := .crc) hv hcrc, concludeStage_fault_bind]
  · have hicb := readIcb_of_info_error (readBits_beyond (sp := .info) hinfo)
    rw [exec_interleave, stage3_of_checks hlen hread hrange hdistinct, hicb, concludeStage_fault_bind]
  · have hicb := readIcb_of_scr_error (readBits_of_reads ha hinfo) (readResult_wrongLength (r := .scr) hv hscr)
    rw [exec_interleave, stage3_of_checks hlen hread hrange hdistinct, hicb, concludeStage_fault_bind]
  · rw [exec_mapFrozen, stage4_of_checks hlen hread hcount, readResult_wrongLength (r := .ilv) hv hilv,
      concludeStage_fault_bind]
  · rw [exec_transform, stage5_of_checks hrows hcols, readResult_wrongLength (r := .frz) hv hfrz,
      concludeStage_fault_bind]
  · rw [exec_rateMatch, stage6_of_checks hlen hread hrange, readResult_wrongLength (r := .enc) hv henc,
      concludeStage_fault_bind]
  · rw [exec_compare, stage7_of_checks hlen, readResult_wrongLength (r := .rmo) hv hrmo, concludeStage_fault_bind]

end Sys2Proof.Machine
end

section
/-! PROOFS. The family of spec/30_encoding.md: the stage codes through the decoder and the encoder (R91, R92, R93, R99),
both read off the program store, and the step as the sequencer's fetch (R90, R113). -/

namespace Sys2Proof.Machine

/-! ### Codes -/

/-- The program store holds every code, at the entry of its own value (R90). -/
theorem rom_toFin (c : Code) : rom c.toFin = c := by
  revert c; decide

/-- The program store holds at a stage's number the code the encoder gives that stage (R90, R92). -/
theorem rom_number (i : Instr) : rom i.number = encode i := by
  cases i <;> rfl

/-- The codes that decode to a stage operation are that operation's encoding (R92, R99). -/
theorem decode_eq_stage_iff {c : Code} {i : Instr} : decode c = .stage i ↔ encode i = c := by
  constructor
  · intro h
    have hnumber : i.number = c.toFin := (decode_rom c.toFin i).mp (by rwa [rom_toFin])
    rw [← rom_number, hnumber, rom_toFin]
  · rintro rfl
    rw [← rom_number, decode_rom]

/-- Settles O6, by `decode_eq_stage_iff` in both directions. -/
theorem decodeAndEncodeAgree : Obligations.DecodeAndEncodeAgree :=
  ⟨fun _ => decode_eq_stage_iff.mpr rfl, fun _ _ => decode_eq_stage_iff.mp, rfl⟩

/-! ### Words -/

/-- A word below 8 is its own three-bit code, so decoding words undoes the encoder too (R91, entry 10). -/
theorem decodeWord_toNat_encode (i : Instr) : decodeWord (encode i).toNat = .ok i := by
  rw [decodeWord, if_pos (encode i).isLt, BitVec.ofNat_toNat, BitVec.setWidth_eq, decode_eq_stage_iff.mpr rfl]

/-- A table word wide enough for a code, holding the code of a stage operation, reads as that operation. -/
theorem decodeTableWord_toNat_encode {nbits : Nat} (h : 3 ≤ nbits) (i : Instr) :
    decodeTableWord nbits (encode i).toNat = some i := by
  have fits : (encode i).toNat < 2 ^ nbits := (encode i).isLt.trans_le (Nat.pow_le_pow_right two_pos h)
  rw [decodeTableWord, if_pos fits, decodeWord_toNat_encode]

/-- A word the decoder rejects is no stage operation, whatever its width. -/
theorem decodeTableWord_of_error {w : Nat} {r : Reject} (h : decodeWord w = .error r) (nbits : Nat) :
    decodeTableWord nbits w = none := by
  rw [decodeTableWord, h, ite_self]

/-- A word with a bit above the three of the code is no code (entry 10). -/
theorem decodeWord_of_wide {w : Nat} (h : 8 ≤ w) : decodeWord w = .error (.notACode w) := if_neg h.not_gt

/-- Settles O5: the tabulated words are the encodings of the stages. -/
theorem stageCodesDecodeAsTabulated : Obligations.StageCodesDecodeAsTabulated := by
  have stage := decodeTableWord_toNat_encode (nbits := 8) (by decide)
  exact ⟨stage .computeCrc, stage .scramble, stage .interleave, stage .mapFrozen, stage .transform, stage .rateMatch,
    stage .compare, decodeTableWord_of_error (r := .halt) rfl 8,
    fun n _ hw => decodeTableWord_of_error (decodeWord_of_wide hw) n⟩

/-! ### The fetch -/

/-- With no action of the host, the sequencer moves (entry 6). -/
theorem step_of_no_action {s : State} (h : s.host = []) : step s = sequencerStep s := by
  rw [step, stepAgents, h]

/-- While BUSY, a host that waits leaves the step to the sequencer (entry 6). -/
theorem step_of_wait {s : State} {rest : List HostAction} (hb : s.state = .busy) (h : s.host = .wait :: rest) :
    step s = sequencerStep { s with host := rest } := by
  rw [step, stepAgents, h]
  exact if_pos hb

/-- A sequencer that is not BUSY has no step (R113, entry 7). -/
theorem sequencerStep_of_not_busy {s : State} (hb : s.state ≠ .busy) :
    sequencerStep s = .refused .waitingForStart := if_neg hb

/-- The code at entry 0 is halt, which a BUSY sequencer does not execute (R93, entry 21). -/
theorem sequencerStep_halt {s : State} (hb : s.state = .busy) (h0 : s.stg = 0) :
    sequencerStep s = .fault .haltFetched := by
  rw [sequencerStep, if_pos hb, h0]; rfl

/-- Settles O7: the fetched stage has number STG, and a BUSY sequencer runs the stage of that number. -/
theorem stepRunsTheFetchedStage : Obligations.StepRunsTheFetchedStage := by
  refine ⟨fun s i hb hfetch => ?_, fun s hstg => ?_, fun s hb hhost => ?_⟩
  · have hnumber : i.number = s.stg := (decode_rom s.stg i).mp hfetch
    refine ⟨hnumber, fun hhost => ?_, fun rest hhost => ?_⟩
    · rw [step_of_no_action hhost, sequencerStep_eq_exec hb hnumber]
    · rw [step_of_wait hb hhost, sequencerStep_eq_exec (s := { s with host := rest }) hb hnumber]
  · obtain ⟨i, hi⟩ := exists_number_eq hstg
    exact ⟨i, (decode_rom s.stg i).mpr hi⟩
  · rw [step_of_no_action hhost, sequencerStep_of_not_busy hb]

/-- Settles O8, by the two cases of the sequencer at the halt entry. -/
theorem haltCodeIsNotExecuted : Obligations.HaltCodeIsNotExecuted := by
  intro s h0 hhost
  rw [step_of_no_action hhost]
  exact ⟨fun hb => sequencerStep_halt hb h0, sequencerStep_of_not_busy⟩

end Sys2Proof.Machine
end

section
/-! PROOFS. The family of spec/40_pipeline_sequencer.md, the run as steps of the machine: the start command (R112), the
end of a stage (R113, R114, R238), the lengths of the results (R120) and the end of every run (R121). -/

namespace Sys2Proof.Machine

/-! ### The start command -/

/-- The start command takes effect on a core that is not BUSY and in which the host has written everything (R112). -/
theorem writeCsr_start {s : State} {v : Nat} (hb : s.state ≠ .busy) (hin : s.initialised = true) (hv : v % 2 = 1) :
    writeCsr 15 v s = .next (startRun s) := by
  simp [writeCsr, writeCtrl, hb, hin, hv]

/-- Settles O9: the next state is `startRun`, which is BUSY, so no result reads as a value. -/
theorem startCommandBeginsARun : Obligations.StartCommandBeginsARun := by
  intro s v hb hin hv
  exact ⟨startRun s, writeCsr_start hb hin hv, rfl, rfl, rfl, rfl, rfl, ⟨rfl, rfl, rfl, rfl⟩,
    sameElements_of_mem rfl, fun _ i => hostReadResult_none i (.inl rfl), hostReadCsr_mmc_none (.inl rfl)⟩

/-! ### The end of a stage -/

/-- The stage number after any stage but the last: only after 7 does STG wrap to 0 (R28). -/
theorem number_succ_val {i : Instr} (hi : i ≠ .compare) : (i.number + 1).val = i.number.val + 1 := by
  cases i
  case compare => exact absurd rfl hi
  all_goals rfl

/-- Settles O32, by the two ways a stage operation gives a next state. -/
theorem stageCompletesOrAborts : Obligations.StageCompletesOrAborts := by
  intro i s t h
  rcases exec_next_cases h with ⟨r', -, rfl⟩ | ⟨e, rfl⟩
  · have hset : hasFlag (setFlag s.valid i) i = true := by simp [hasFlag_setFlag]
    refine .inl ⟨by rwa [finishStage_valid], finishStage_errKind .., finishStage_errStg .., fun hi => ?_, ?_⟩
    · rw [finishStage_state, if_neg hi, finishStage_stg]
      exact ⟨rfl, number_succ_val hi⟩
    · rintro rfl
      exact ⟨rfl, rfl⟩
  · exact .inr ⟨e, rfl⟩

/-! ### The lengths of the results (R120) -/

/-- Whatever happens in a step of a run, the results it leaves have their lengths. -/
theorem step_busy_lengthsOk {s t : State} (hI : s.Inv) (hb : s.state = .busy) (h : step s = .next t) :
    t.lengthsOk = true := by
  cases step_effect h with
  | stage rest _ hi he => exact (exec_keeps_Inv (Inv_host hI rest) hb hi he).2
  | ignored =>
    obtain ⟨-, -, -, -, -, hlen, -⟩ := Inv_busy hI hb
    exact hlen
  | hostWrite hnb => exact absurd hb hnb
  | start _ _ hnb => exact absurd hb hnb
  | reset => exact lengthsOk_of_no_flags rfl

/-- Settles O38, one register at a time. -/
theorem resultsHaveTheirDeclaredLengths : Obligations.ResultsHaveTheirDeclaredLengths := by
  intro s t hI hb h
  have hlen := (lengthsOk_iff t).mp (step_busy_lengthsOk hI hb h)
  exact ⟨hlen .crc, hlen .scr, hlen .ilv, hlen .frz, hlen .enc, hlen .rmo⟩

/-! ### Every run ends (R121) -/

/-- The first of several steps. -/
theorem runSteps_succ {s u : State} (n : Nat) (h : step s = .next u) : runSteps (n + 1) s = runSteps n u := by
  have hcore : Sys2Proof.core.step s = .next u := h
  simp only [runSteps, Host.Core.run]
  rw [hcore]

/-- A BUSY core whose host does nothing or waits runs the stage STG names (R90, R113, entry 6). -/
theorem step_of_waiting {s : State} {i : Instr} (hb : s.state = .busy) (hi : i.number = s.stg)
    (hw : ∀ a ∈ s.host, a = .wait) : step s = exec i { s with host := s.host.tail } := by
  rw [← sequencerStep_eq_exec (s := { s with host := s.host.tail }) hb hi]
  cases hh : s.host with
  | nil => rw [step_of_no_action hh, List.tail_nil, ← hh]
  | cons a rest =>
    obtain rfl : a = .wait := hw a (hh ▸ List.mem_cons_self)
    exact step_of_wait hb hh

/-- A run in progress, left alone or polled: its next step ends it or moves STG on (R113, R114, R238). -/
theorem step_of_run {s : State} (hI : s.Inv) (hb : s.state = .busy) (hw : ∀ a ∈ s.host, a = .wait) :
    ∃ t, step s = .next t ∧ ((t.state = .done ∨ t.state = .err) ∨
      t.state = .busy ∧ t.stg.val = s.stg.val + 1 ∧ t.Inv ∧ ∀ a ∈ t.host, a = .wait) := by
  have hu : State.Inv { s with host := s.host.tail } := Inv_host hI _
  obtain ⟨hstg, -⟩ := Inv_busy hI hb
  obtain ⟨i, hi⟩ := exists_number_eq hstg
  obtain ⟨t, ht⟩ := exec_is_next hu hb hi
  refine ⟨t, (step_of_waiting hb hi hw).trans ht, ?_⟩
  rcases stageCompletesOrAborts _ _ _ ht with ⟨-, -, -, hnext, hlast⟩ | ⟨e, rfl⟩
  · by_cases hc : i = .compare
    · exact .inl (.inl (hlast hc).1)
    · obtain ⟨hstate, hval⟩ := hnext hc
      obtain ⟨⟨-, -, -, hhost⟩, -⟩ := stagesWriteOnlyTheirOwnResult _ _ _ ht
      refine .inr ⟨hstate.trans hb, by rw [hval, hi], (exec_keeps_Inv hu hb hi ht).1, fun a ha => ?_⟩
      rw [hhost] at ha
      exact hw a (List.mem_of_mem_tail ha)
  · exact .inl (.inr rfl)

/-- A run with `n` stages to go ends within `n` steps. -/
theorem run_ends_within {n : Nat} {s : State} (hI : s.Inv) (hb : s.state = .busy) (hw : ∀ a ∈ s.host, a = .wait)
    (hn : s.stg.val + n = 8) :
    ∃ k t, 1 ≤ k ∧ k ≤ n ∧ runSteps k s = .next t ∧ (t.state = .done ∨ t.state = .err) := by
  induction n generalizing s with
  | zero => exact absurd s.stg.isLt (by omega)
  | succ n ih =>
    obtain ⟨t, ht, hend | ⟨hbt, hstg, hIt, hwt⟩⟩ := step_of_run hI hb hw
    · exact ⟨1, t, le_rfl, by omega, runSteps_succ 0 ht, hend⟩
    · obtain ⟨k, t', -, hk, hrun, hend⟩ := ih hIt hbt hwt (by omega)
      exact ⟨k + 1, t', by omega, by omega, by rw [runSteps_succ k ht, hrun], hend⟩

/-- Settles O40: from stage STG there are at most seven stages to go. -/
theorem everyRunEnds : Obligations.EveryRunEnds := by
  intro s hI hb hw
  obtain ⟨hstg, -⟩ := Inv_busy hI hb
  have hpos : 0 < s.stg.val := Fin.pos_iff_ne_zero.mpr hstg
  obtain ⟨k, t, hk, hle, hrun⟩ := run_ends_within (n := 8 - s.stg.val) hI hb hw (by omega)
  exact ⟨k, t, hk, by omega, hrun⟩

end Sys2Proof.Machine
end

section
/-! PROOFS. The family of spec/40_pipeline_sequencer.md, the run as one function (R117, R119, R122). `stageOn` is what
one stage makes of the nine arguments and of the results before it. The run function is the seven stages in order
(`pipelineRun_eq_stages`), a stage operation of a run does what its stage does (`InRun.exec_eq`), and so the machine
ends a run where the stages do (`InRun.ends`). -/

namespace Sys2Proof.Machine

/-! ### The stages as functions of the nine arguments -/

/-- What a stage makes of the nine arguments and of the results of the stages before it: its checks in their order
(R234, R237), then its result stored. -/
def stageOn (x : RunInput) (r : Results) : Instr → Except (StageError × Fin 8) Results
  | .computeCrc => do
    requireAt 1 (x.crcgen.rows == x.info.length + 1) .shape
    requireAt 1 (x.info.length == x.cfg.a) .shape
    requireAt 1 (x.crcgen.rows == x.cfg.k) .shape
    requireAt 1 (x.crcgen.cols == x.cfg.p) .shape
    return { r with crc := crcOf x.cfg.p x.info x.crcgen.rowList }
  | .scramble => do
    requireAt 2 (decide (x.rnti.length ≤ x.cfg.p)) .shape
    return { r with scr := scrambleBits r.crc x.rnti }
  | .interleave => do
    requireAt 3 (x.cilpat.length == x.cfg.a + x.cfg.p) .shape
    requireAt 3 (inRange x.cilpat (x.cfg.a + x.cfg.p)) .index
    requireAt 3 (noDuplicate x.cilpat) .index
    return { r with ilv := gather (x.info ++ r.scr) x.cilpat }
  | .mapFrozen => do
    requireAt 4 (x.ibpat.length == x.cfg.n) .shape
    requireAt 4 (positiveCount x.ibpat == x.cfg.a + x.cfg.p) .shape
    return { r with frz := frozenOf x.ibpat r.ilv }
  | .transform => do
    requireAt 5 (x.encgen.rows == x.cfg.n) .shape
    requireAt 5 (x.encgen.cols == x.cfg.n) .shape
    return { r with enc := transformBits r.frz x.encgen.rowList }
  | .rateMatch => do
    requireAt 6 (x.rmpat.length == x.cfg.e) .shape
    requireAt 6 (inRange x.rmpat x.cfg.n) .index
    return { r with rmo := gather r.enc x.rmpat }
  | .compare => do
    requireAt 7 (x.ref.length == x.cfg.e) .shape
    return { r with mmc := mismatchCount r.rmo x.ref }

/-- The stages before the Validator, in their order (R110). -/
def stagesBeforeCompare : List Instr := [.computeCrc, .scramble, .interleave, .mapFrozen, .transform, .rateMatch]

/-- The seven stages in their order (R110). -/
def allStages : List Instr := stagesBeforeCompare ++ [.compare]

/-- The results after the stages `is`, from the results `r`, or the first error. -/
def stagesOn (x : RunInput) (is : List Instr) (r : Results) : Except (StageError × Fin 8) Results :=
  is.foldlM (stageOn x) r

/-- The run function is the seven stages in their order, each on what the stages before it delivered (R110, R117). -/
theorem pipelineRun_eq_stages (x : RunInput) :
    pipelineRun x = (do
      let r ← stagesOn x allStages Results.noValue
      return (r.rmo, r.mmc)) := by
  simp only [stagesOn, allStages, stagesBeforeCompare, List.cons_append, List.nil_append, List.foldlM_cons,
    List.foldlM_nil, stageOn, bind_assoc, pure_bind, pipelineRun]

/-- A check of stage `k` before what fails at stage `k` only. -/
theorem number_of_check_error {α : Type} {k k' : Fin 8} {c : Bool} {e e' : StageError}
    {f : Unit → Except (StageError × Fin 8) α} (hf : f () = .error (e', k') → k' = k)
    (h : (requireAt k c e >>= f) = .error (e', k')) : k' = k := by
  cases c
  · cases h; rfl
  · exact hf h

/-- An error names the stage that raised it (R236). -/
theorem stageOn_error_number {x : RunInput} {r : Results} {i : Instr} {e : StageError} {k : Fin 8}
    (h : stageOn x r i = .error (e, k)) : k = i.number := by
  revert h
  cases i with
  | computeCrc =>
    exact number_of_check_error <| number_of_check_error <| number_of_check_error <| number_of_check_error nofun
  | scramble => exact number_of_check_error nofun
  | interleave => exact number_of_check_error <| number_of_check_error <| number_of_check_error nofun
  | mapFrozen => exact number_of_check_error <| number_of_check_error nofun
  | transform => exact number_of_check_error <| number_of_check_error nofun
  | rateMatch => exact number_of_check_error <| number_of_check_error nofun
  | compare => exact number_of_check_error nofun

/-! ### The Validator alone reads the reference (R122) -/

/-- The run function, its last stage apart: the only one that looks at the reference (R122). -/
theorem pipelineRun_eq_compare (x : RunInput) :
    pipelineRun x = (do
      let r ← stagesOn x stagesBeforeCompare Results.noValue
      let r' ← stageOn x r .compare
      return (r'.rmo, r'.mmc)) := by
  rw [pipelineRun_eq_stages]
  simp only [stagesOn, allStages, List.foldlM_append, List.foldlM_cons, List.foldlM_nil, bind_assoc, pure_bind]

/-- The stages before the Validator do not look at the reference (R111, R122). -/
theorem stagesOn_beforeCompare_ref (x : RunInput) (ref : List Bit) (r : Results) :
    stagesOn { x with ref := ref } stagesBeforeCompare r = stagesOn x stagesBeforeCompare r := rfl

/-- Settles O42: the bits are those of `rateMatchedBits`, where the reference does not occur, and an error at a stage
other than 7 comes from the stages before the Validator. -/
theorem rateMatchedBitsIgnoreTheReference : Obligations.RateMatchedBitsIgnoreTheReference := by
  refine fun x ref => ⟨fun r m r' m' h h' => ?_, fun e k h hk => ?_⟩
  · obtain ⟨-, hr, -⟩ := pipelineRun_eq_ok.mp h
    obtain ⟨-, hr', -⟩ := pipelineRun_eq_ok.mp h'
    exact hr'.symm.trans hr
  · rw [pipelineRun_eq_compare] at h ⊢
    rw [stagesOn_beforeCompare_ref]
    cases hbefore : stagesOn x stagesBeforeCompare Results.noValue with
    | error p => rw [hbefore] at h; exact h
    | ok r =>
      rw [hbefore, ok_bind] at h
      cases hcompare : stageOn x r .compare with
      | error p =>
        rw [hcompare, error_bind] at h
        obtain rfl : p = (e, k) := Except.error.inj h
        exact absurd (stageOn_error_number hcompare) hk
      | ok r' => rw [hcompare] at h; cases h

/-! ### What the host has supplied, as the stages read it -/

/-- A read of an operand up to its length register delivers it, if every element holds a value (R64). -/
theorem readBits_of_firstN {sp : BitSpace} {s : State} {vs : List Bit}
    (h : (s.mem.bits sp).firstN (s.len.bits sp) = some vs) : readBits sp vs.length s = .ok vs := by
  have hlen := firstN_length h
  exact readBits_eq_ok.mpr ⟨hlen.le, hlen ▸ h⟩

theorem readEntries_of_firstN {sp : PatSpace} {s : State} {vs : List Nat}
    (h : (s.mem.entries sp).firstN (s.len.entries sp) = some vs) : readEntries sp vs.length s = .ok vs := by
  have hlen := firstN_length h
  exact readEntries_eq_ok.mpr ⟨hlen.le, hlen ▸ h⟩

theorem readMatrix_of_rowsOf {sp : MatSpace} {s : State} {rows : List (List Bit)}
    (h : (s.mem.matrix sp).rowsOf (s.len.rows sp) (s.len.cols sp) = some rows) :
    readMatrix sp (s.len.rows sp) (s.len.cols sp) s = .ok rows :=
  readMatrix_eq_ok.mpr ⟨⟨le_rfl, le_rfl⟩, h⟩

/-- The state holds the nine arguments `x`: its registers are their lengths, and a read of a whole operand delivers
it (R64, R117). -/
structure Supplied (x : RunInput) (s : State) : Prop where
  cfg : s.cfg = x.cfg
  lenInfo : s.len.info = x.info.length
  rowsCrcgen : s.len.rowsCrcgen = x.crcgen.rows
  colsCrcgen : s.len.colsCrcgen = x.crcgen.cols
  lenRnti : s.len.rnti = x.rnti.length
  lenCilpat : s.len.cilpat = x.cilpat.length
  lenIbpat : s.len.ibpat = x.ibpat.length
  rowsEncgen : s.len.rowsEncgen = x.encgen.rows
  colsEncgen : s.len.colsEncgen = x.encgen.cols
  lenRmpat : s.len.rmpat = x.rmpat.length
  lenRef : s.len.ref = x.ref.length
  readInfo : readBits .info x.info.length s = .ok x.info
  readCrcgen : readMatrix .crcgen x.crcgen.rows x.crcgen.cols s = .ok x.crcgen.rowList
  readRnti : readBits .rnti x.rnti.length s = .ok x.rnti
  readCilpat : readEntries .cilpat x.cilpat.length s = .ok x.cilpat
  readIbpat : readEntries .ibpat x.ibpat.length s = .ok x.ibpat
  readEncgen : readMatrix .encgen x.encgen.rows x.encgen.cols s = .ok x.encgen.rowList
  readRmpat : readEntries .rmpat x.rmpat.length s = .ok x.rmpat
  readRef : readBits .ref x.ref.length s = .ok x.ref

theorem supplied_of_runInput {x : RunInput} {s : State} (h : s.runInput = some x) : Supplied x s := by
  obtain ⟨hcfg, hinfo, hcrcgen, hcr, hcc, hrnti, hcil, hib, hencgen, her, hec, hrm, href⟩ := runInput_eq_some.mp h
  exact
    { cfg := hcfg.symm
      lenInfo := (firstN_length hinfo).symm, rowsCrcgen := hcr.symm, colsCrcgen := hcc.symm
      lenRnti := (firstN_length hrnti).symm, lenCilpat := (firstN_length hcil).symm
      lenIbpat := (firstN_length hib).symm, rowsEncgen := her.symm, colsEncgen := hec.symm
      lenRmpat := (firstN_length hrm).symm, lenRef := (firstN_length href).symm
      readInfo := readBits_of_firstN hinfo
      readCrcgen := hcr ▸ hcc ▸ readMatrix_of_rowsOf hcrcgen
      readRnti := readBits_of_firstN hrnti
      readCilpat := readEntries_of_firstN hcil
      readIbpat := readEntries_of_firstN hib
      readEncgen := her ▸ hec ▸ readMatrix_of_rowsOf hencgen
      readRmpat := readEntries_of_firstN hrm
      readRef := readBits_of_firstN href }

/-! ### A stage of a run in progress -/

/-- A run on `x` is in progress and stage `i` is next: the flags are those of the stages before it, their results have
their lengths, and past stage 1 the input block has the declared length (R113, R120). -/
structure InRun (x : RunInput) (i : Instr) (s : State) : Prop where
  busy : s.state = .busy
  stg : i.number = s.stg
  valid : s.valid = flagsBelow i.number
  noError : s.errKind = .none ∧ s.errStg = 0
  input : s.runInput = some x
  lengths : ∀ b : BitReg, hasFlag s.valid b.writer = true → (s.res.bits b).length = resultLength s.cfg b
  info : i ≠ .computeCrc → s.len.info = s.cfg.a

/-- The state after stage `i`, given what the stage makes of its operands (R113, R238). -/
def endStage (i : Instr) (s : State) : Except (StageError × Fin 8) Results → State
  | .ok r => finishStage i r s
  | .error (e, _) => abort e i s

/-- A check of the model against the same check of the run function: they fail alike, and if they hold the rest
decides. -/
theorem concludeStage_check {α : Type} {i : Instr} {store : α → Results → Results} {s : State} {c : Bool}
    {e : StageError} {k : Fin 8} {f : Unit → Except Stop α} {g : Unit → Except (StageError × Fin 8) Results}
    (h : c = true → concludeStage i store (f ()) s = .next (endStage i s (g ()))) :
    concludeStage i store (require c e >>= f) s = .next (endStage i s (requireAt k c e >>= g)) := by
  cases c
  · rfl
  · exact h rfl

/-- The results of the stages before stage `i` can be read (R27, R111). -/
theorem InRun.readResult_eq {x : RunInput} {i : Instr} {s : State} (h : InRun x i s) (b : BitReg)
    (hb : b.writer.number < i.number) : readResult b (resultLength x.cfg b) s = .ok (s.res.bits b) := by
  have hflag : hasFlag s.valid b.writer = true := by rw [h.valid, hasFlag_flagsBelow, decide_eq_true hb]
  have hcfg : s.cfg = x.cfg := (supplied_of_runInput h.input).cfg
  exact readResult_valid hflag (hcfg ▸ h.lengths b hflag)

/-- In a run a stage operation does what its stage makes of the nine arguments and of the results before it. -/
theorem InRun.exec_eq {x : RunInput} {i : Instr} {s : State} (h : InRun x i s) :
    exec i s = .next (endStage i s (stageOn x s.res i)) := by
  have hx := supplied_of_runInput h.input
  cases i with
  | computeCrc =>
    simp only [exec_computeCrc, stage1, hx.cfg, hx.lenInfo, hx.rowsCrcgen, hx.colsCrcgen, hx.readInfo, hx.readCrcgen]
    exact concludeStage_check fun _ => concludeStage_check fun _ => concludeStage_check fun _ =>
      concludeStage_check fun _ => rfl
  | scramble =>
    have hcrc : readResult .crc x.cfg.p s = .ok s.res.crc := h.readResult_eq .crc (by decide)
    simp only [exec_scramble, stage2, hx.cfg, hx.lenRnti, hcrc, hx.readRnti]
    exact concludeStage_check fun _ => rfl
  | interleave =>
    have hscr : readResult .scr x.cfg.p s = .ok s.res.scr := h.readResult_eq .scr (by decide)
    have ha : x.info.length = x.cfg.a := by rw [← hx.lenInfo, ← hx.cfg, h.info (by decide)]
    have hicb : readIcb s = .ok (x.info ++ s.res.scr) :=
      readIcb_eq_ok.mpr ⟨_, _, by rw [hx.cfg, ← ha, hx.readInfo], by rw [hx.cfg, hscr], rfl⟩
    simp only [exec_interleave, stage3, hx.cfg, hx.lenCilpat, hx.readCilpat, hicb]
    exact concludeStage_check fun _ => concludeStage_check fun _ => concludeStage_check fun _ => rfl
  | mapFrozen =>
    have hilv : readResult .ilv (x.cfg.a + x.cfg.p) s = .ok s.res.ilv := h.readResult_eq .ilv (by decide)
    simp only [exec_mapFrozen, stage4, hx.cfg, hx.lenIbpat, hilv]
    refine concludeStage_check fun hn => ?_
    rw [← beq_iff_eq.mp hn, hx.readIbpat]
    exact concludeStage_check fun _ => rfl
  | transform =>
    have hfrz : readResult .frz x.cfg.n s = .ok s.res.frz := h.readResult_eq .frz (by decide)
    simp only [exec_transform, stage5, hx.cfg, hx.rowsEncgen, hx.colsEncgen, hfrz]
    refine concludeStage_check fun hr => concludeStage_check fun hc => ?_
    have hread := hx.readEncgen
    rw [beq_iff_eq.mp hr, beq_iff_eq.mp hc] at hread
    rw [hread]
    rfl
  | rateMatch =>
    have henc : readResult .enc x.cfg.n s = .ok s.res.enc := h.readResult_eq .enc (by decide)
    simp only [exec_rateMatch, stage6, hx.cfg, hx.lenRmpat, henc]
    refine concludeStage_check fun hn => ?_
    rw [← beq_iff_eq.mp hn, hx.readRmpat]
    exact concludeStage_check fun _ => rfl
  | compare =>
    have hrmo : readResult .rmo x.cfg.e s = .ok s.res.rmo := h.readResult_eq .rmo (by decide)
    simp only [exec_compare, stage7, hx.cfg, hx.lenRef, hrmo]
    refine concludeStage_check fun hn => ?_
    rw [← beq_iff_eq.mp hn, hx.readRef]
    rfl

/-! ### From one stage of a run to the next -/

/-- What a stage delivers is stored as its own result (R25, R113). -/
theorem InRun.storesOwn {x : RunInput} {i : Instr} {s : State} {r : Results} (h : InRun x i s)
    (hr : stageOn x s.res i = .ok r) : StoresOwn i s r := by
  have hexec : exec i s = .next (finishStage i r s) := by rw [h.exec_eq, hr, endStage]
  rcases exec_next_cases hexec with ⟨r', hown, heq⟩ | ⟨e, heq⟩
  · have hres := congrArg State.res heq
    rw [finishStage_res, finishStage_res] at hres
    exact hres ▸ hown
  · obtain ⟨hnone, -⟩ := h.noError
    have hkind := congrArg State.errKind heq
    rw [finishStage_errKind, abort_errKind, hnone] at hkind
    exact absurd hkind.symm e.kind_ne_none

/-- When a stage other than the last succeeds, the run goes on with the next one. -/
theorem InRun.next_of_ok {x : RunInput} {i j : Instr} {s : State} {r : Results} (h : InRun x i s)
    (hr : stageOn x s.res i = .ok r) (hi : i ≠ .compare) (hj : j.number = i.number + 1) :
    InRun x j (finishStage i r s) := by
  have hown := h.storesOwn hr
  constructor
  case busy => rw [finishStage_state, if_neg hi, h.busy]
  case stg => rw [finishStage_stg, hj]
  case valid => rw [finishStage_valid, h.valid, setFlag_flagsBelow, if_neg hi, hj]
  case noError => rw [finishStage_errKind, finishStage_errStg]; exact h.noError
  case input => rw [runInput_congr (finishStage_cfg i r s) (finishStage_len ..) (finishStage_mem ..), h.input]
  case lengths =>
    intro b hb
    rw [finishStage_res, finishStage_cfg]
    rw [finishStage_valid, hasFlag_setFlag, Bool.or_eq_true, decide_eq_true_eq] at hb
    by_cases hw : b.writer = i
    · exact hown.length b hw
    · rw [hown.others b hw]
      exact h.lengths b (hb.resolve_left hw)
  case info =>
    intro _
    rw [finishStage_len, finishStage_cfg]
    by_cases hc : i = .computeCrc
    · exact hown.info hc
    · exact h.info hc

/-- A run starts at stage 1 (R112). -/
theorem inRun_startRun {x : RunInput} {s : State} (h : s.runInput = some x) :
    InRun x .computeCrc (startRun s) where
  busy := rfl
  stg := rfl
  valid := rfl
  noError := ⟨rfl, rfl⟩
  input := h
  lengths := fun b hb => absurd (hasFlag_zero b.writer) (by simpa using hb)
  info := nofun

/-- What the host is about to do is no part of a run in progress. -/
theorem InRun.with_host {x : RunInput} {i : Instr} {s : State} (h : InRun x i s) (rest : List HostAction) :
    InRun x i { s with host := rest } := { h with }

/-! ### The rest of a run -/

/-- `is` are the stages after stage `i`, in their order, up to the last (R110). -/
inductive StagesAfter : Instr → List Instr → Prop
  | last : StagesAfter .compare []
  | next {i j : Instr} {is : List Instr} (notLast : i ≠ .compare) (number : j.number = i.number + 1)
      (rest : StagesAfter j is) : StagesAfter i (j :: is)

/-- The stages after stage 1. -/
theorem stagesAfter_computeCrc :
    StagesAfter .computeCrc [.scramble, .interleave, .mapFrozen, .transform, .rateMatch, .compare] :=
  .next nofun rfl <| .next nofun rfl <| .next nofun rfl <| .next nofun rfl <| .next nofun rfl <|
    .next nofun rfl .last

/-- A core done with the results `r`: the sequencer's registers as a completed run leaves them (R114). -/
def doneWith (r : Results) : State := { State.reset with res := r, valid := BitVec.allOnes 7, state := .done }

/-- A core whose run stage `k` has aborted with the error `e` after the results `r` (R238). -/
def abortedAt (r : Results) (e : StageError) (k : Fin 8) : State :=
  { State.reset with
    res := r, valid := flagsBelow k, state := .err, stg := k, errKind := e.kind, errStg := k }

/-- How a run ends that has the stages `is` to go and the results `r` so far: done, or aborted by the first stage that
raises an error. -/
def runEnd (x : RunInput) : List Instr → Results → State
  | [], r => doneWith r
  | i :: is, r =>
    match stageOn x r i with
    | .ok r' => runEnd x is r'
    | .error (e, k) => abortedAt r e k

theorem runEnd_cons_ok {x : RunInput} {i : Instr} {is : List Instr} {r r' : Results} (h : stageOn x r i = .ok r') :
    runEnd x (i :: is) r = runEnd x is r' := by
  rw [runEnd, h]

theorem runEnd_cons_error {x : RunInput} {i : Instr} {is : List Instr} {r : Results} {e : StageError} {k : Fin 8}
    (h : stageOn x r i = .error (e, k)) : runEnd x (i :: is) r = abortedAt r e k := by
  rw [runEnd, h]

/-- The end of a run shows what the stages to go return. -/
theorem runEnd_showsResult (x : RunInput) (is : List Instr) (r : Results) :
    showsResult (runEnd x is r) (do
      let r' ← stagesOn x is r
      return (r'.rmo, r'.mmc)) := by
  induction is generalizing r with
  | nil => exact ⟨rfl, rfl, rfl, rfl, rfl, rfl, rfl⟩
  | cons i is ih =>
    rw [stagesOn, List.foldlM_cons]
    cases h : stageOn x r i with
    | ok r' => rw [runEnd_cons_ok h]; exact ih r'
    | error p => rw [runEnd_cons_error h]; exact ⟨rfl, rfl, rfl, rfl, rfl⟩

theorem sameSequencer.symm {s t : State} (same : sameSequencer s t) : sameSequencer t s := by
  obtain ⟨hres, hvalid, hstate, hstg, hkind, hestg⟩ := same
  exact ⟨hres.symm, hvalid.symm, hstate.symm, hstg.symm, hkind.symm, hestg.symm⟩

theorem sameSequencer.trans {s t u : State} (st : sameSequencer s t) (tu : sameSequencer t u) :
    sameSequencer s u := by
  obtain ⟨hres, hvalid, hstate, hstg, hkind, hestg⟩ := st
  obtain ⟨hres', hvalid', hstate', hstg', hkind', hestg'⟩ := tu
  exact ⟨hres'.trans hres, hvalid'.trans hvalid, hstate'.trans hstate, hstg'.trans hstg, hkind'.trans hkind,
    hestg'.trans hestg⟩

/-- What a state shows of a run is in its sequencer's registers. -/
theorem showsResult_of_sameSequencer {s t : State} (same : sameSequencer s t)
    {o : Except (StageError × Fin 8) (List Bit × Nat)} (h : showsResult s o) : showsResult t o := by
  obtain ⟨hres, hvalid, hstate, hstg, hkind, hestg⟩ := same
  simpa only [showsResult, hres, hvalid, hstate, hstg, hkind, hestg] using h

/-- A host that waits beside a core that is not BUSY changes nothing (entry 6). -/
theorem runSteps_wait_of_not_busy {n : Nat} {s : State} (hb : s.state ≠ .busy)
    (hh : s.host = List.replicate n .wait) : runSteps n s = .next { s with host := [] } := by
  induction n generalizing s with
  | zero =>
    have hnil : s.host = [] := hh
    rw [← hnil]; rfl
  | succ n ih =>
    have hstep : step s = .next { s with host := List.replicate n .wait } := by
      rw [step, stepAgents, hh]
      exact if_neg hb
    rw [runSteps_succ n hstep]
    exact ih (s := { s with host := List.replicate n .wait }) hb rfl

/-- A step beside a waiting host ends stage `i` of a run. -/
theorem InRun.step_eq {x : RunInput} {i : Instr} {s : State} (h : InRun x i s) {rest : List HostAction}
    (hh : s.host = .wait :: rest) :
    step s = .next (endStage i { s with host := rest } (stageOn x s.res i)) := by
  rw [step_of_wait h.busy hh, sequencerStep_eq_exec (s := { s with host := rest }) h.busy h.stg,
    (h.with_host rest).exec_eq]

/-- `n` steps from `s` end as a run on `x` that has the stages `is` to go and the results `r` so far, with the nine
arguments unchanged and the host's list used up. -/
def EndsAsRun (x : RunInput) (is : List Instr) (r : Results) (n : Nat) (s : State) : Prop :=
  ∃ t, runSteps n s = .next t ∧ sameSequencer (runEnd x is r) t ∧ t.runInput = some x ∧ t.host = []

/-- A stage that raises an error ends the run; the host waits to its last action (R238). -/
theorem InRun.ends_of_error {x : RunInput} {i : Instr} {s : State} (h : InRun x i s) {e : StageError} {k : Fin 8}
    (herr : stageOn x s.res i = .error (e, k)) {n : Nat} (hh : s.host = List.replicate (n + 1) .wait)
    (is : List Instr) : EndsAsRun x (i :: is) s.res (n + 1) s := by
  have hstep := h.step_eq (hh.trans List.replicate_succ)
  rw [herr] at hstep
  refine ⟨{ abort e i s with host := [] }, ?_, ?_, h.input, rfl⟩
  · rw [runSteps_succ n hstep]
    exact runSteps_wait_of_not_busy (s := abort e i { s with host := List.replicate n .wait }) nofun rfl
  · obtain rfl := stageOn_error_number herr
    rw [runEnd_cons_error herr]
    exact ⟨rfl, h.valid, rfl, h.stg.symm, rfl, rfl⟩

/-- A run at stage `i`, with a wait of the host for each stage to go, ends as `runEnd` says, stage by stage. -/
theorem InRun.ends {x : RunInput} {i : Instr} {is : List Instr} (hafter : StagesAfter i is) {s : State}
    (h : InRun x i s) (hh : s.host = List.replicate (is.length + 1) .wait) :
    EndsAsRun x (i :: is) s.res (is.length + 1) s := by
  induction hafter generalizing s with
  | last =>
    cases hr : stageOn x s.res .compare with
    | error p => exact h.ends_of_error hr hh []
    | ok r =>
      have hstep := h.step_eq hh
      rw [hr] at hstep
      obtain ⟨hkind, hestg⟩ := h.noError
      refine ⟨_, runSteps_succ 0 hstep, ?_, h.input, rfl⟩
      rw [runEnd_cons_ok hr]
      refine ⟨rfl, ?_, rfl, rfl, hkind, hestg⟩
      exact (congrArg (setFlag · .compare) h.valid).trans (setFlag_flagsBelow .compare)
  | @next i j is hi hj _ ih =>
    cases hr : stageOn x s.res i with
    | error p => exact h.ends_of_error hr hh _
    | ok r =>
      have hstep := h.step_eq (hh.trans List.replicate_succ)
      rw [hr] at hstep
      have hnext := (h.with_host (List.replicate (is.length + 1) .wait)).next_of_ok hr hi hj
      obtain ⟨t, hrun, hend⟩ := ih hnext (finishStage_host ..)
      rw [finishStage_res] at hend
      exact ⟨t, (runSteps_succ _ hstep).trans hrun, by rwa [runEnd_cons_ok hr]⟩

/-! ### The whole run -/

/-- The start command and seven steps take a core that holds the nine arguments to the end of the run on them. -/
theorem startAndWait_ends {s : State} {x : RunInput} (hb : s.state ≠ .busy) (hw : s.written = BitVec.allOnes 15)
    (hx : s.runInput = some x) :
    EndsAsRun x allStages Results.noValue 8 { s with host := startAndWait } := by
  have hin : s.initialised = true := by simp [State.initialised, hw, hx]
  have hstep : step { s with host := startAndWait } =
      .next (startRun { s with host := List.replicate 7 .wait }) :=
    writeCsr_start (s := { s with host := List.replicate 7 .wait }) (v := 1) hb hin rfl
  have hrun : InRun x .computeCrc (startRun { s with host := List.replicate 7 .wait }) := inRun_startRun hx
  rw [EndsAsRun, runSteps_succ 7 hstep]
  exact hrun.ends stagesAfter_computeCrc rfl

/-- Settles O39: the end of the run shows what the seven stages return, which is the run function. -/
theorem runComputesThePipelineFunction : Obligations.RunComputesThePipelineFunction := by
  intro s x hb hw hx
  obtain ⟨t, hrun, same, hinput, hhost⟩ := startAndWait_ends hb hw hx
  have hend := runEnd_showsResult x allStages Results.noValue
  rw [← pipelineRun_eq_stages] at hend
  exact ⟨t, hrun, showsResult_of_sameSequencer same hend, hinput, hhost⟩

/-- Settles O41: the end of a run is a function of the nine arguments. -/
theorem runDependsOnItsInputsOnly : Obligations.RunDependsOnItsInputsOnly := by
  intro s s' x hb hb' hw hw' hx hx'
  obtain ⟨t, hrun, same, -⟩ := startAndWait_ends hb hw hx
  obtain ⟨t', hrun', same', -⟩ := startAndWait_ends hb' hw' hx'
  exact ⟨t, t', hrun, hrun', same.symm.trans same'⟩

end Sys2Proof.Machine
end

section
/-! PROOFS. The family of spec/41_crc_engine.md: the checks of stage 1 (R141), the parity bits it writes (R142, R143),
and the parity as an affine function of the block (R145, R146). A product with a matrix is taken column by column
(`columnXor`). -/

namespace Sys2Proof.Machine

/-! ### The checks of stage 1 (R141) -/

/-- A check ends a stage with its error if it fails, or if the rest of the stage raises the same error. -/
theorem require_bind_eq_raise {α : Type} {c : Bool} {e : StageError} {k : Unit → Except Stop α}
    (h : c = true → k () = .error (.raise e)) : (require c e >>= k) = .error (.raise e) := by
  cases c
  · rfl
  · exact h rfl

/-- One failing check is enough: past the four of them, each has passed. -/
theorem stage1_eq_raise {s : State}
    (h : s.len.rowsCrcgen ≠ s.len.info + 1 ∨ s.len.info ≠ s.cfg.a ∨ s.len.rowsCrcgen ≠ s.cfg.k ∨
      s.len.colsCrcgen ≠ s.cfg.p) : stage1 s = .error (.raise .shape) := by
  refine require_bind_eq_raise fun hk => require_bind_eq_raise fun ha => require_bind_eq_raise fun hrows =>
    require_bind_eq_raise fun hcols => ?_
  rcases h with h | h | h | h
  · exact absurd (beq_iff_eq.mp hk) h
  · exact absurd (beq_iff_eq.mp ha) h
  · exact absurd (beq_iff_eq.mp hrows) h
  · exact absurd (beq_iff_eq.mp hcols) h

/-- Settles O21: stage 1 raises ShapeError, and the abort step records it. -/
theorem computeCrcRaisesShapeError : Obligations.ComputeCrcRaisesShapeError := by
  intro s h
  rw [exec_computeCrc, stage1_eq_raise h]
  rfl

/-! ### The parity bits (R142, R143) -/

theorem readMatrix_of_reads {sp : MatSpace} {r c : Nat} {s : State} {f : Nat → Nat → Bit} (hr : r ≤ s.len.rows sp)
    (hc : c ≤ s.len.cols sp) (h : ∀ i j, i < r → j < c → (s.mem.matrix sp).read (i, j) = some (f i j)) :
    readMatrix sp r c s = .ok ((List.range r).map fun i => (List.range c).map (f i)) :=
  readMatrix_eq_ok.mpr ⟨⟨hr, hc⟩, rowsOf_of_reads h⟩

/-- A parity bit is row 0 of the matrix plus the rows the information bits select: the leading 1 selects row 0. -/
theorem crcOf_getElem? {p j : Nat} (a : Nat) (info : Nat → Bit) (m : Nat → Nat → Bit) (hj : j < p) :
    (crcOf p ((List.range a).map info) ((List.range (a + 1)).map fun i => (List.range p).map (m i)))[j]? =
      some (Bool.xor (m 0 j) (xorRange a fun i => info i && m (i + 1) j)) := by
  have entry (i : Nat) (hi : i < a + 1) :
      (((List.range (a + 1)).map fun i => (List.range p).map (m i)).getD i []).getD j false = m i j := by
    simp [hi, hj]
  rw [crcOf, gf2Vecmat_getElem? (by simp) hj, List.length_cons, List.length_map, List.length_range,
    xorRange_succ_left, entry 0 a.succ_pos, List.getD_cons_zero, Bool.true_and]
  refine congrArg (fun rest => some (Bool.xor (m 0 j) rest)) (xorRange_congr fun i hi => ?_)
  rw [entry (i + 1) (Nat.succ_lt_succ hi)]
  simp [hi]

/-- When stage 1 delivers a value, `compute_crc` writes it to CRC, sets V_CRC and moves STG to 2 (R113, R143). -/
theorem exec_computeCrc_of_ok {s : State} {v : List Bit} (h : stage1 s = .ok v) :
    exec .computeCrc s =
      .next { s with res := { s.res with crc := v }, valid := s.valid ||| 0b0000001#7, stg := 2 } := by
  rw [exec_computeCrc, h]
  rfl

/-- Settles O14: the checks pass, both reads deliver, and the value written is the contract's, bit by bit. -/
theorem computeCrcWritesParityBits : Obligations.ComputeCrcWritesParityBits := by
  intro s info m hk ha hrows hcols hinfo hm
  have hk' : s.cfg.k = s.cfg.a + 1 := by rw [← hrows, hk, ha]
  have hstage : stage1 s = .ok (crcOf s.cfg.p ((List.range s.cfg.a).map info)
      ((List.range s.cfg.k).map fun i => (List.range s.cfg.p).map (m i))) := by
    rw [stage1_of_checks hk ha hrows hcols, readBits_of_reads ha.ge hinfo, ok_bind,
      readMatrix_of_reads hrows.ge hcols.ge hm, ok_bind, pure_ok]
  refine ⟨_, exec_computeCrc_of_ok hstage, crcOf_length _ _ _, fun j hj => ?_⟩
  rw [hk', crcOf_getElem? s.cfg.a info m hj]

/-! ### The product with a matrix, column by column (R12) -/

/-- The product of a vector with column `j` of a matrix given by its rows. -/
def columnXor (v : List Bit) (rows : List (List Bit)) (j : Nat) : Bit :=
  xorSum (List.zipWith (fun b row => b && row.getD j false) v rows)

theorem gf2Vecmat_eq_map (n : Nat) (v : List Bit) (rows : List (List Bit)) :
    gf2Vecmat n v rows = (List.range n).map (columnXor v rows) := rfl

theorem columnXor_cons (b : Bit) (v row : List Bit) (rows : List (List Bit)) (j : Nat) :
    columnXor (b :: v) (row :: rows) j = Bool.xor (b && row.getD j false) (columnXor v rows j) := rfl

/-- With no row left nothing is selected. -/
theorem columnXor_no_rows (v : List Bit) (j : Nat) : columnXor v [] j = false := by
  rw [columnXor, List.zipWith_nil_right, xorSum_nil]

/-- The zero vector selects no row. -/
theorem columnXor_zeros (a : Nat) (rows : List (List Bit)) (j : Nat) : columnXor (zeros a) rows j = false := by
  induction a generalizing rows with
  | zero => rfl
  | succ a ih =>
    cases rows with
    | nil => exact columnXor_no_rows _ j
    | cons row rows =>
      calc columnXor (zeros (a + 1)) (row :: rows) j
          = Bool.xor (false && row.getD j false) (columnXor (zeros a) rows j) := rfl
        _ = false := by rw [ih rows, Bool.false_and, Bool.xor_false]

/-- The product is additive in the vector: AND distributes over XOR, row by row. -/
theorem columnXor_xorBits {a b : List Bit} (h : a.length = b.length) (rows : List (List Bit)) (j : Nat) :
    columnXor (xorBits a b) rows j = Bool.xor (columnXor a rows j) (columnXor b rows j) := by
  induction a generalizing b rows with
  | nil =>
    obtain rfl : b = [] := List.length_eq_zero_iff.mp h.symm
    rfl
  | cons x a ih =>
    obtain _ | ⟨y, b⟩ := b
    · exact absurd h (Nat.succ_ne_zero _)
    cases rows with
    | nil => simp only [columnXor_no_rows, Bool.xor_false]
    | cons row rows =>
      calc columnXor (xorBits (x :: a) (y :: b)) (row :: rows) j
          = Bool.xor (Bool.xor x y && row.getD j false) (columnXor (xorBits a b) rows j) := rfl
        _ = Bool.xor (columnXor (x :: a) (row :: rows) j) (columnXor (y :: b) (row :: rows) j) := by
          rw [ih (Nat.succ.inj h) rows, Bool.and_xor_distrib_right, columnXor_cons, columnXor_cons]
          simp only [Bool.xor_assoc, Bool.xor_left_comm]

/-- `gf2_vecmat` is linear in its vector argument (R146, R190). -/
theorem gf2Vecmat_xorBits (n : Nat) {a b : List Bit} (h : a.length = b.length) (rows : List (List Bit)) :
    gf2Vecmat n (xorBits a b) rows = xorBits (gf2Vecmat n a rows) (gf2Vecmat n b rows) := by
  simp only [gf2Vecmat_eq_map, xorBits, List.zipWith_map, List.zipWith_self]
  exact List.map_congr_left fun j _ => columnXor_xorBits h rows j

/-! ### The parity as an affine function of the block (R145, R146) -/

/-- The zero sequence is neutral for XOR. -/
theorem xorBits_zeros (v : List Bit) : xorBits v (zeros v.length) = v := by
  induction v with
  | nil => rfl
  | cons b v ih => exact congrArg₂ List.cons (Bool.xor_false b) ih

/-- Settles O51: the leading 1 selects row 0 and the zero block no other. -/
theorem parityOfZeroBlockIsRowZero : Obligations.ParityOfZeroBlockIsRowZero := by
  intro a p row0 rows hp
  subst hp
  have column (j : Nat) : columnXor (true :: zeros a) (row0 :: rows) j = row0.getD j false := by
    rw [columnXor_cons, columnXor_zeros, Bool.true_and, Bool.xor_false]
  rw [crcOf, gf2Vecmat_eq_map]
  refine List.ext_getElem (by simp) fun j _ hj => ?_
  rw [List.getElem_map, List.getElem_range, column, List.getD_eq_getElem _ _ hj]

/-- Settles O50 as R146 derives it: the block with its leading 1 is the sum of both blocks with theirs and of the zero
block with its own, and the product is linear. -/
theorem computeCrcIsAffine : Obligations.ComputeCrcIsAffine := by
  intro p a b row0 rows hab hp
  have hlen : (xorBits (true :: a) (true :: b)).length = (true :: zeros a.length).length := by simp [hab]
  have hblock : true :: xorBits a b = xorBits (xorBits (true :: a) (true :: b)) (true :: zeros a.length) := by
    have hrest := xorBits_zeros (xorBits a b)
    rw [xorBits_length, ← hab, Nat.min_self] at hrest
    exact congrArg (true :: ·) hrest.symm
  have hzero : gf2Vecmat p (true :: zeros a.length) (row0 :: rows) = row0 :=
    parityOfZeroBlockIsRowZero a.length p row0 rows hp
  rw [crcOf, hblock, gf2Vecmat_xorBits p hlen, gf2Vecmat_xorBits p (by simp [hab]), hzero, crcOf, crcOf]

end Sys2Proof.Machine
end

section
/-! PROOFS. The family of spec/42_scrambler.md: the check of stage 2 (R151), the masked suffix it writes (R152, R153)
and the laws of scrambling (R154). The padding's case split is made once, on the mask (`scrambleMask_getD`). -/

namespace Sys2Proof.Machine

/-! ### The mask and the bits it leaves or flips (R152) -/

/-- The left padding of the mask is 0, the rest is the identifier. -/
theorem scrambleMask_getD (p : Nat) (r : List Bit) (j : Nat) :
    (scrambleMask p r).getD j false =
      if j < p - r.length then false else r.getD (j - (p - r.length)) false := by
  rw [scrambleMask]
  split
  case isTrue hj => rw [List.getD_append _ _ _ _ (by simpa using hj), zeros, List.getD_replicate _ hj]
  case isFalse hj => rw [List.getD_append_right _ _ _ _ (by simpa using hj), zeros_length]

/-- A padded bit is copied, a bit of the suffix is XORed with the identifier. -/
theorem scrambleBits_getElem? {c r : List Bit} (hr : r.length ≤ c.length) {j : Nat} (hj : j < c.length) :
    (scrambleBits c r)[j]? =
      some (if j < c.length - r.length then c.getD j false
        else Bool.xor (c.getD j false) (r.getD (j - (c.length - r.length)) false)) := by
  rw [scrambleBits, xorBits_getElem? _ _ _ hj ((scrambleMask_length hr).symm ▸ hj), scrambleMask_getD]
  split
  case isTrue => rw [Bool.xor_false]
  case isFalse => rfl

/-! ### The step of stage 2 (R151, R153) -/

/-- When stage 2 delivers a value, `scramble` writes it to SCR, sets V_SCR and moves STG to 3 (R113, R153). -/
theorem exec_scramble_of_ok {s : State} {v : List Bit} (h : stage2 s = .ok v) :
    exec .scramble s =
      .next { s with res := { s.res with scr := v }, valid := s.valid ||| 0b0000010#7, stg := 3 } := by
  rw [exec_scramble, h]
  rfl

/-- Settles O15: the check passes, both reads deliver, and the value written is the contract's, bit by bit. -/
theorem scrambleMasksTheSuffix : Obligations.ScrambleMasksTheSuffix := by
  intro s rnti hle hv hcrc hread
  have hlen : ((List.range s.len.rnti).map rnti).length = s.len.rnti := by simp
  have hr : ((List.range s.len.rnti).map rnti).length ≤ s.res.crc.length := by rwa [hlen, hcrc]
  have hstage : stage2 s = .ok (scrambleBits s.res.crc ((List.range s.len.rnti).map rnti)) := by
    rw [stage2_of_checks hle, readResult_valid (r := .crc) hv hcrc, ok_bind,
      readBits_of_reads (sp := .rnti) (n := s.len.rnti) le_rfl hread, ok_bind, pure_ok]
    rfl
  refine ⟨_, exec_scramble_of_ok hstage, (scrambleBits_length hr).trans hcrc, fun j hj => ?_⟩
  rw [scrambleBits_getElem? hr (hcrc.symm ▸ hj), hcrc, hlen]
  split
  case isTrue => rfl
  case isFalse hsuffix =>
    have hi : j - (s.cfg.p - s.len.rnti) < s.len.rnti := by omega
    simp [hi]

/-- The check of R151 is the first thing stage 2 does. -/
theorem stage2_eq_raise {s : State} (h : s.cfg.p < s.len.rnti) : stage2 s = .error (.raise .shape) :=
  require_bind_eq_raise fun hle => absurd (of_decide_eq_true hle) h.not_ge

/-- Settles O22: stage 2 raises ShapeError, and the abort step records it. -/
theorem scrambleRaisesShapeError : Obligations.ScrambleRaisesShapeError := by
  intro s h
  rw [exec_scramble, stage2_eq_raise h]
  rfl

/-! ### The laws of scrambling (R154) -/

/-- XOR with one mask twice is no change, where the mask is long enough to lose no bit. -/
theorem xorBits_xorBits_cancel {a m : List Bit} (h : a.length ≤ m.length) : xorBits (xorBits a m) m = a := by
  induction a generalizing m with
  | nil => rfl
  | cons x a ih =>
    cases m with
    | nil => exact absurd h (Nat.not_succ_le_zero _)
    | cons y m =>
      have hxy : Bool.xor (Bool.xor x y) y = x := by rw [Bool.xor_assoc, Bool.xor_self, Bool.xor_false]
      exact congrArg₂ List.cons hxy (ih (Nat.le_of_succ_le_succ h))

/-- The mask of an all-zero identifier is all zero. -/
theorem scrambleMask_zeros {p n : Nat} (h : n ≤ p) : scrambleMask p (zeros n) = zeros p := by
  rw [scrambleMask, zeros_length, zeros, zeros, List.replicate_append_replicate, Nat.sub_add_cancel h, zeros]

/-- Settles O52: both scramblings use one mask, since the first keeps the length; a mask of zeros is neutral. -/
theorem scrambleIsAnInvolution : Obligations.ScrambleIsAnInvolution := by
  intro c r hr
  constructor
  · rw [scrambleBits, scrambleBits_length hr]
    exact xorBits_xorBits_cancel (scrambleMask_length hr).ge
  · rw [scrambleBits, scrambleMask_zeros hr, xorBits_zeros]

end Sys2Proof.Machine
end

section
/-! PROOFS. The family of spec/43_interleaver.md: the checks of stage 3 (R161, R162), the gather it writes (R163, R164)
and the laws of interleaving by a permutation (R165, R166), which rest on one fact: a permutation of `0..n-1` is a
rearrangement of `List.range n` (`perm_range_of_isPermutationOf`). -/

namespace Sys2Proof.Machine

/-! ### The checks of stage 3 (R161, R162) -/

/-- The length check of R161 is the first thing stage 3 does. -/
theorem stage3_eq_raise_shape {s : State} (h : s.len.cilpat ≠ s.cfg.a + s.cfg.p) :
    stage3 s = .error (.raise .shape) :=
  require_bind_eq_raise fun hlen => absurd (beq_iff_eq.mp hlen) h

/-- A pattern in range has every one of its entries in range. -/
theorem lt_of_inRange_map_range {n bound i : Nat} {f : Nat → Nat} (h : inRange ((List.range n).map f) bound = true)
    (hi : i < n) : f i < bound :=
  of_decide_eq_true (List.all_eq_true.mp h (f i) (List.mem_map_of_mem (List.mem_range.mpr hi)))

/-- A pattern without duplicates has distinct entries at distinct positions. -/
theorem ne_of_noDuplicate_map_range {n i i' : Nat} {f : Nat → Nat} (h : noDuplicate ((List.range n).map f) = true)
    (hi : i < i') (hi' : i' < n) : f i ≠ f i' := by
  have hnodup : ((List.range n).map f).Nodup := of_decide_eq_true h
  intro heq
  exact hi.ne (List.inj_on_of_nodup_map hnodup (List.mem_range.mpr (hi.trans hi')) (List.mem_range.mpr hi') heq)

/-- Past the length check a bad entry fails the range check or, with all entries in range, the duplicate check. -/
theorem stage3_eq_raise_index {s : State} {pat : Nat → Nat} (hlen : s.len.cilpat = s.cfg.a + s.cfg.p)
    (hread : ∀ i, i < s.cfg.a + s.cfg.p → (s.mem.entries .cilpat).read i = some (pat i))
    (hbad : (∃ i, i < s.cfg.a + s.cfg.p ∧ s.cfg.a + s.cfg.p ≤ pat i) ∨
      (∃ i i', i < i' ∧ i' < s.cfg.a + s.cfg.p ∧ pat i = pat i')) : stage3 s = .error (.raise .index) := by
  have hpat : readEntries .cilpat s.len.cilpat s = .ok ((List.range (s.cfg.a + s.cfg.p)).map pat) := by
    rw [hlen]; exact readEntries_of_reads hlen.ge hread
  rw [stage3, require_bind, if_pos (beq_iff_eq.mpr hlen), hpat, ok_bind]
  refine require_bind_eq_raise fun hrange => require_bind_eq_raise fun hdistinct => ?_
  rcases hbad with ⟨i, hi, hout⟩ | ⟨i, i', hlt, hi', heq⟩
  · exact absurd (lt_of_inRange_map_range hrange hi) hout.not_gt
  · exact absurd heq (ne_of_noDuplicate_map_range hdistinct hlt hi')

/-- Settles O23: stage 3 raises ShapeError, else IndexError, and the abort step records it. -/
theorem interleaveRaisesShapeThenIndexError : Obligations.InterleaveRaisesShapeThenIndexError := by
  intro s
  refine ⟨fun hlen => ?_, fun pat hlen hread hbad => ?_⟩
  · rw [exec_interleave, stage3_eq_raise_shape hlen]
    rfl
  · rw [exec_interleave, stage3_eq_raise_index hlen hread hbad]
    rfl

/-! ### The gather of stage 3 (R163, R164) -/

/-- ICB is INFO and then SCR, when both are there (R26). -/
theorem readIcb_of_reads {s : State} {info : Nat → Bit} (ha : s.cfg.a ≤ s.len.info)
    (hinfo : ∀ i, i < s.cfg.a → (s.mem.bits .info).read i = some (info i)) (hv : s.valid.getLsbD 1 = true)
    (hscr : s.res.scr.length = s.cfg.p) : readIcb s = .ok ((List.range s.cfg.a).map info ++ s.res.scr) :=
  readIcb_eq_ok.mpr ⟨_, _, readBits_of_reads ha hinfo, readResult_valid (r := .scr) hv hscr, rfl⟩

/-- One bit of a sequence whose first `a` bits are given by their index, as those of ICB are. -/
theorem map_range_append_getD (a : Nat) (f : Nat → Bit) (rest : List Bit) (v : Nat) :
    ((List.range a).map f ++ rest).getD v false = if v < a then f v else rest.getD (v - a) false := by
  split
  case isTrue hv =>
    rw [List.getD_append _ _ _ _ (by simpa using hv)]
    simp [hv]
  case isFalse hv => rw [List.getD_append_right _ _ _ _ (by simpa using hv), List.length_map, List.length_range]

/-- When stage 3 delivers a value, `interleave` writes it to ILV, sets V_ILV and moves STG to 4 (R113, R164). -/
theorem exec_interleave_of_ok {s : State} {v : List Bit} (h : stage3 s = .ok v) :
    exec .interleave s =
      .next { s with res := { s.res with ilv := v }, valid := s.valid ||| 0b0000100#7, stg := 4 } := by
  rw [exec_interleave, h]
  rfl

/-- Settles O16: the checks pass, ICB is read, and the value written is its gather, bit by bit. -/
theorem interleaveGathersByPattern : Obligations.InterleaveGathersByPattern := by
  intro s pat info hlen ha hread hrange hdistinct hinfo hv hscr
  have hstage : stage3 s = .ok (gather ((List.range s.cfg.a).map info ++ s.res.scr)
      ((List.range (s.cfg.a + s.cfg.p)).map pat)) := by
    rw [stage3_of_checks hlen hread hrange hdistinct, readIcb_of_reads ha hinfo hv hscr, ok_bind, pure_ok]
  refine ⟨_, exec_interleave_of_ok hstage, by simp, fun i hi => ?_⟩
  have hentry : ((List.range (s.cfg.a + s.cfg.p)).map pat).getD i 0 = pat i := by simp [hi]
  rw [gather_getElem? _ _ _ (by simpa using hi), hentry, map_range_append_getD]

/-! ### Interleaving by a permutation (R165, R166) -/

/-- A permutation of `0..n-1` (R24) is a rearrangement of the list of these numbers. -/
theorem perm_range_of_isPermutationOf {p : List Index} {n : Nat} (h : isPermutationOf p n = true) :
    p.Perm (List.range n) := by
  simp only [isPermutationOf, Bool.and_eq_true, beq_iff_eq, decide_eq_true_eq, List.all_eq_true] at h
  obtain ⟨⟨hlen, hrange⟩, hnodup⟩ := h
  have hsub : p ⊆ List.range n := fun v hv => List.mem_range.mpr (hrange v hv)
  exact (hnodup.subperm hsub).perm_of_length_le (by rw [List.length_range, hlen])

/-- Every number below `n` is an entry of a permutation of `0..n-1`. -/
theorem exists_getD_eq_of_isPermutationOf {p : List Index} {n j : Nat} (h : isPermutationOf p n = true) (hj : j < n) :
    ∃ i, i < n ∧ p.getD i 0 = j := by
  have hperm := perm_range_of_isPermutationOf h
  obtain ⟨i, hi, hij⟩ := List.mem_iff_getElem.mp (hperm.mem_iff.mpr (List.mem_range.mpr hj))
  exact ⟨i, by simpa [hperm.length_eq] using hi, by rw [List.getD_eq_getElem _ _ hi, hij]⟩

/-- One bit of a gather, the default reading of `gather_getElem?`. -/
theorem gather_getD (x : List Bit) {p : List Index} {i : Nat} (hi : i < p.length) :
    (gather x p).getD i false = x.getD (p.getD i 0) false := by
  rw [List.getD_eq_getElem?_getD, gather_getElem? x p i hi, Option.getD_some]

/-- Two sequences of one length that agree at every index are one. -/
theorem eq_of_getD_eq {x y : List Bit} (hlen : x.length = y.length)
    (h : ∀ i, i < y.length → x.getD i false = y.getD i false) : x = y := by
  refine List.ext_getElem hlen fun i hx hy => ?_
  rw [← List.getD_eq_getElem x false hx, h i hy, List.getD_eq_getElem]

/-- The gather by the indices in order is no change. -/
theorem gather_range_length (x : List Bit) : gather x (List.range x.length) = x := by
  refine eq_of_getD_eq (by simp) fun i hi => ?_
  have hentry : (List.range x.length).getD i 0 = i := by simp [hi]
  rw [gather_getD x (by simpa using hi), hentry]

/-- The gather by a permutation rearranges the bits. -/
theorem gather_perm {x : List Bit} {p : List Index} (h : isPermutationOf p x.length = true) : (gather x p).Perm x :=
  calc (gather x p).Perm (gather x (List.range x.length)) := (perm_range_of_isPermutationOf h).map _
    _ = x := gather_range_length x

/-- Settles O54: rearranging does not change a count. -/
theorem interleaveKeepsTheNumberOfOnes : Obligations.InterleaveKeepsTheNumberOfOnes :=
  fun _ _ h => (gather_perm h).count_eq true

/-- Settles O53: the first gather takes bit `j` of `x` to some position `i` with `p[i] = j`, and since `q[j] = i` the
second takes it back. -/
theorem interleaveRoundTrip : Obligations.InterleaveRoundTrip := by
  intro x p q hp hq hinv
  have hplen : p.length = x.length := by simpa using (perm_range_of_isPermutationOf hp).length_eq
  refine eq_of_getD_eq (by simpa using hq) fun j hj => ?_
  obtain ⟨i, hi, rfl⟩ := exists_getD_eq_of_isPermutationOf hp hj
  calc (gather (gather x p) q).getD (p.getD i 0) false
      = (gather x p).getD (q.getD (p.getD i 0) 0) false := gather_getD _ (hq.symm ▸ hj)
    _ = (gather x p).getD i false := by rw [hinv i hi]
    _ = x.getD (p.getD i 0) false := gather_getD _ (hplen.symm ▸ hi)

end Sys2Proof.Machine
end

section
/-! PROOFS. The family of spec/44_frozen_bit_mapper.md: the checks of stage 4 (R171), the vector it writes (R172, R173)
and the laws of the mapping and its gather `extract_info` (R175 to R177). A mapping with as many bits as positive ranks
is built position by position (`Fills`), and mapping back what was extracted clears the frozen positions
(`clearFrozen`). -/

namespace Sys2Proof.Machine

/-! ### The checks of stage 4 (R171) -/

/-- The length check of R171 is the first thing stage 4 does. -/
theorem stage4_eq_raise_of_length {s : State} (h : s.len.ibpat ≠ s.cfg.n) : stage4 s = .error (.raise .shape) :=
  require_bind_eq_raise fun hlen => absurd (beq_iff_eq.mp hlen) h

/-- The positive ranks of a pattern given by its entries are counted by index. -/
theorem positiveCount_map_range (n : Nat) (rank : Nat → Nat) :
    positiveCount ((List.range n).map rank) = countRange n fun i => decide (0 < rank i) :=
  countP_map_range n rank _

/-- Past the length check the ranks are read, and their count is checked next. -/
theorem stage4_eq_raise_of_count {s : State} {rank : Nat → Nat} (hlen : s.len.ibpat = s.cfg.n)
    (hread : ∀ i, i < s.cfg.n → (s.mem.entries .ibpat).read i = some (rank i))
    (hcount : countRange s.cfg.n (fun i => decide (0 < rank i)) ≠ s.cfg.a + s.cfg.p) :
    stage4 s = .error (.raise .shape) := by
  have hranks : readEntries .ibpat s.cfg.n s = .ok ((List.range s.cfg.n).map rank) :=
    readEntries_of_reads hlen.ge hread
  rw [stage4, require_bind, if_pos (beq_iff_eq.mpr hlen), hranks, ok_bind, positiveCount_map_range]
  exact require_bind_eq_raise fun hpos => absurd (beq_iff_eq.mp hpos) hcount

/-- Settles O24: stage 4 raises ShapeError at either check, and the abort step records it. -/
theorem mapFrozenRaisesShapeError : Obligations.MapFrozenRaisesShapeError := by
  intro s
  refine ⟨fun hlen => ?_, fun rank hlen hread hcount => ?_⟩
  · rw [exec_mapFrozen, stage4_eq_raise_of_length hlen]
    rfl
  · rw [exec_mapFrozen, stage4_eq_raise_of_count hlen hread hcount]
    rfl

/-! ### The vector of stage 4 (R172, R173) -/

/-- One bit of the mapping (R172). -/
theorem frozenOf_getElem? {ranks : List Rank} (bits : List Bit) {i : Nat} (hi : i < ranks.length) :
    (frozenOf ranks bits)[i]? =
      some (if 0 < ranks.getD i 0 then bits.getD (countRange i fun k => decide (0 < ranks.getD k 0)) false
        else false) :=
  scatterByPosition_getElem? ranks bits i hi

/-- One bit of the mapping by a pattern given by its entries: the counter of R172 stands at the number of positive
ranks before the position. -/
theorem frozenOf_map_range_getElem? {n i : Nat} (rank : Nat → Nat) (bits : List Bit) (hi : i < n) :
    (frozenOf ((List.range n).map rank) bits)[i]? =
      some (if 0 < rank i then bits.getD (countRange i fun k => decide (0 < rank k)) false else false) := by
  have entry (k : Nat) (hk : k < n) : ((List.range n).map rank).getD k 0 = rank k := by simp [hk]
  have before : (countRange i fun k => decide (0 < ((List.range n).map rank).getD k 0)) =
      countRange i fun k => decide (0 < rank k) := countRange_congr fun k hk => by rw [entry k (hk.trans hi)]
  rw [frozenOf_getElem? bits (by simpa using hi), before, entry i hi]

/-- When stage 4 delivers a value, `map_frozen` writes it to FRZ, sets V_FRZ and moves STG to 5 (R113, R173). -/
theorem exec_mapFrozen_of_ok {s : State} {v : List Bit} (h : stage4 s = .ok v) :
    exec .mapFrozen s =
      .next { s with res := { s.res with frz := v }, valid := s.valid ||| 0b0001000#7, stg := 5 } := by
  rw [exec_mapFrozen, h]
  rfl

/-- Settles O17: the checks pass, ILV is read, and the value written is the contract's, bit by bit. -/
theorem mapFrozenFillsInPositionOrder : Obligations.MapFrozenFillsInPositionOrder := by
  intro s rank hlen hread hcount hv hilv
  have hstage : stage4 s = .ok (frozenOf ((List.range s.cfg.n).map rank) s.res.ilv) := by
    rw [stage4_of_checks hlen hread hcount, readResult_valid (r := .ilv) hv hilv, ok_bind, pure_ok]
    rfl
  exact ⟨_, exec_mapFrozen_of_ok hstage, by simp, fun i hi => frozenOf_map_range_getElem? rank s.res.ilv hi⟩

/-! ### One position of the mapping and of the gather (R172, R175) -/

section Position
variable {r : Rank} (ranks : List Rank) (b : Bit) (bits f : List Bit)

theorem frozenOf_cons_frozen : frozenOf (0 :: ranks) bits = false :: frozenOf ranks bits := rfl

theorem frozenOf_cons_positive (h : 0 < r) : frozenOf (r :: ranks) (b :: bits) = b :: frozenOf ranks bits := if_pos h

theorem extractInfo_cons_frozen : extractInfo (b :: f) (0 :: ranks) = extractInfo f ranks := rfl

theorem extractInfo_cons_positive (h : 0 < r) : extractInfo (b :: f) (r :: ranks) = b :: extractInfo f ranks := if_pos h

theorem positiveCount_cons_frozen : positiveCount (0 :: ranks) = positiveCount ranks := rfl

theorem positiveCount_cons_positive (h : 0 < r) : positiveCount (r :: ranks) = positiveCount ranks + 1 :=
  List.countP_cons_of_pos (decide_eq_true h)

end Position

/-! ### Patterns with as many positive ranks as bits (R171, R176, R177) -/

/-- The bits fill the positive positions of the pattern, one each. -/
inductive Fills : List Rank → List Bit → Prop
  | nil : Fills [] []
  | frozen {ranks : List Rank} {bits : List Bit} : Fills ranks bits → Fills (0 :: ranks) bits
  | positive {r : Rank} {b : Bit} {ranks : List Rank} {bits : List Bit} :
      0 < r → Fills ranks bits → Fills (r :: ranks) (b :: bits)

/-- The count check of R171 is all that it takes. -/
theorem fills_of_positiveCount {ranks : List Rank} {bits : List Bit} (h : positiveCount ranks = bits.length) :
    Fills ranks bits := by
  induction ranks generalizing bits with
  | nil =>
    obtain rfl : bits = [] := List.length_eq_zero_iff.mp h.symm
    exact .nil
  | cons r ranks ih =>
    obtain rfl | hr := r.eq_zero_or_pos
    · rw [positiveCount_cons_frozen] at h
      exact .frozen (ih h)
    · rw [positiveCount_cons_positive ranks hr] at h
      cases bits with
      | nil => exact absurd h (Nat.succ_ne_zero _)
      | cons b bits => exact .positive hr (ih (Nat.succ.inj h))

theorem Fills.extractInfo_frozenOf {ranks : List Rank} {bits : List Bit} (h : Fills ranks bits) :
    extractInfo (frozenOf ranks bits) ranks = bits := by
  induction h with
  | nil => rfl
  | frozen _ ih => rw [frozenOf_cons_frozen, extractInfo_cons_frozen, ih]
  | positive hr _ ih => rw [frozenOf_cons_positive _ _ _ hr, extractInfo_cons_positive _ _ _ hr, ih]

theorem Fills.count_frozenOf {ranks : List Rank} {bits : List Bit} (h : Fills ranks bits) :
    (frozenOf ranks bits).count true = bits.count true := by
  induction h with
  | nil => rfl
  | frozen _ ih => rw [frozenOf_cons_frozen, List.count_cons_of_ne Bool.false_ne_true, ih]
  | positive hr _ ih => rw [frozenOf_cons_positive _ _ _ hr, List.count_cons, List.count_cons, ih]

/-! ### Mapping back what was extracted (R176) -/

/-- A vector with its frozen positions set to 0. -/
def clearFrozen (ranks : List Rank) (f : List Bit) : List Bit :=
  List.zipWith (fun r b => decide (0 < r) && b) ranks f

theorem clearFrozen_getD (ranks : List Rank) (f : List Bit) (i : Nat) :
    (clearFrozen ranks f).getD i false = (decide (0 < ranks.getD i 0) && f.getD i false) := by
  cases hr : ranks[i]? <;> cases hf : f[i]? <;> simp [clearFrozen, List.getElem?_zipWith, hr, hf]

theorem frozenOf_extractInfo {ranks : List Rank} {f : List Bit} (h : f.length = ranks.length) :
    frozenOf ranks (extractInfo f ranks) = clearFrozen ranks f := by
  induction ranks generalizing f with
  | nil => rfl
  | cons r ranks ih =>
    obtain _ | ⟨b, f⟩ := f
    · exact absurd h (Nat.succ_ne_zero _).symm
    have hrest := ih (Nat.succ.inj h)
    obtain rfl | hr := r.eq_zero_or_pos
    · rw [extractInfo_cons_frozen, frozenOf_cons_frozen, hrest]
      rfl
    · rw [extractInfo_cons_positive _ _ _ hr, frozenOf_cons_positive _ _ _ hr, hrest]
      simp [clearFrozen, hr]

/-- Setting the frozen positions to 0 is no change exactly if they are 0 already. -/
theorem clearFrozen_eq_self_iff {ranks : List Rank} {f : List Bit} (h : f.length = ranks.length) :
    clearFrozen ranks f = f ↔ ∀ i, i < ranks.length → ranks.getD i 0 = 0 → f.getD i false = false := by
  constructor
  · intro hself i _ hzero
    rw [← hself, clearFrozen_getD, hzero]
    rfl
  · intro hfrozen
    refine eq_of_getD_eq (by simp [clearFrozen, h]) fun i hi => ?_
    rw [clearFrozen_getD]
    obtain hzero | hpos := (ranks.getD i 0).eq_zero_or_pos
    · rw [hfrozen i (h ▸ hi) hzero, Bool.and_false]
    · rw [decide_eq_true hpos, Bool.true_and]

/-- Settles O55: bits that fill the pattern are extracted in the order they went in; mapped back, a vector has its
frozen positions set to 0. -/
theorem frozenMappingIsReversible : Obligations.FrozenMappingIsReversible := by
  refine ⟨fun ranks bits hcount => (fills_of_positiveCount hcount).extractInfo_frozenOf, fun ranks f hlen => ?_⟩
  rw [frozenOf_extractInfo hlen, clearFrozen_eq_self_iff hlen]

/-! ### What the mapping depends on (R172, R177) -/

/-- Every bit of the mapping is given by the positivity of the ranks up to its position. -/
theorem frozenOf_congr {ranks ranks' : List Rank} (bits : List Bit) (hlen : ranks.length = ranks'.length)
    (hpos : ∀ i, i < ranks.length → (0 < ranks.getD i 0 ↔ 0 < ranks'.getD i 0)) :
    frozenOf ranks bits = frozenOf ranks' bits := by
  refine List.ext_getElem? fun i => ?_
  obtain hi | hi := lt_or_ge i ranks.length
  · have before : (countRange i fun k => decide (0 < ranks.getD k 0)) =
        countRange i fun k => decide (0 < ranks'.getD k 0) :=
      countRange_congr fun k hk => decide_eq_decide.mpr (hpos k (hk.trans hi))
    simp only [frozenOf_getElem? bits hi, frozenOf_getElem? bits (hlen ▸ hi), before, hpos i hi]
  · rw [List.getElem?_eq_none (by simpa using hi), List.getElem?_eq_none (by simpa [← hlen] using hi)]

/-- Settles O56: the mapping sees positivity alone, puts 0 at a rank of 0, and each bit that fills the pattern is kept
once. -/
theorem onlyPositivityOfRanksMatters : Obligations.OnlyPositivityOfRanksMatters := by
  intro ranks ranks' bits hlen hpos
  refine ⟨frozenOf_congr bits hlen hpos, fun i hi hzero => ?_,
    fun hcount => (fills_of_positiveCount hcount).count_frozenOf⟩
  rw [frozenOf_getElem? bits hi, hzero]
  rfl

end Sys2Proof.Machine
end

section
/-! PROOFS. The family of spec/45_polar_transform.md: the checks of stage 5 (R186), the codeword it writes (R187, R188)
and the laws of the transform (R190). An indexed XOR in which one index alone contributes is the term at that index:
the identity matrix leaves one in each column, and a unit vector selects one row. -/

namespace Sys2Proof.Machine

/-! ### The checks of stage 5 (R186) -/

/-- One failing dimension is enough: past both checks, each has passed. -/
theorem stage5_eq_raise {s : State} (h : s.len.rowsEncgen ≠ s.cfg.n ∨ s.len.colsEncgen ≠ s.cfg.n) :
    stage5 s = .error (.raise .shape) := by
  refine require_bind_eq_raise fun hrows => require_bind_eq_raise fun hcols => ?_
  rcases h with h | h
  · exact absurd (beq_iff_eq.mp hrows) h
  · exact absurd (beq_iff_eq.mp hcols) h

/-- Settles O25: stage 5 raises ShapeError, and the abort step records it. -/
theorem transformRaisesShapeError : Obligations.TransformRaisesShapeError := by
  intro s h
  rw [exec_transform, stage5_eq_raise h]
  rfl

/-! ### The codeword (R187, R188) -/

/-- One bit of the transform, taken down its column (R187). -/
theorem transformBits_getElem? {f : List Bit} {rows : List (List Bit)} {j : Nat} (h : f.length = rows.length)
    (hj : j < f.length) :
    (transformBits f rows)[j]? =
      some (xorRange f.length fun i => f.getD i false && (rows.getD i []).getD j false) :=
  gf2Vecmat_getElem? h hj

/-- An entry of a matrix given by its entries. -/
theorem map_range_map_range_getD {r c i j : Nat} (m : Nat → Nat → Bit) (hi : i < r) (hj : j < c) :
    (((List.range r).map fun i => (List.range c).map (m i)).getD i []).getD j false = m i j := by
  simp [hi, hj]

/-- One bit of the transform by a square matrix given by its entries. -/
theorem transformBits_map_range_getElem? {f : List Bit} {n j : Nat} (m : Nat → Nat → Bit) (hf : f.length = n)
    (hj : j < n) :
    (transformBits f ((List.range n).map fun i => (List.range n).map (m i)))[j]? =
      some (xorRange n fun i => f.getD i false && m i j) := by
  subst hf
  rw [transformBits_getElem? (by simp) hj]
  exact congrArg some (xorRange_congr fun i hi => by rw [map_range_map_range_getD m hi hj])

/-- When stage 5 delivers a value, `transform` writes it to ENC, sets V_ENC and moves STG to 6 (R113, R188). -/
theorem exec_transform_of_ok {s : State} {v : List Bit} (h : stage5 s = .ok v) :
    exec .transform s =
      .next { s with res := { s.res with enc := v }, valid := s.valid ||| 0b0010000#7, stg := 6 } := by
  rw [exec_transform, h]
  rfl

/-- Settles O18: the checks pass, FRZ and ENCGEN are read, and the value written is the contract's, bit by bit. -/
theorem transformMultipliesByTheMatrix : Obligations.TransformMultipliesByTheMatrix := by
  intro s m hrows hcols hv hfrz hm
  have hstage : stage5 s = .ok (transformBits s.res.frz
      ((List.range s.cfg.n).map fun i => (List.range s.cfg.n).map (m i))) := by
    rw [stage5_of_checks hrows hcols, readResult_valid (r := .frz) hv hfrz, ok_bind,
      readMatrix_of_reads (sp := .encgen) hrows.ge hcols.ge hm, ok_bind, pure_ok]
    rfl
  exact ⟨_, exec_transform_of_ok hstage, (transformBits_length _ _).trans hfrz,
    fun j hj => transformBits_map_range_getElem? m hfrz hj⟩

/-! ### Linearity (R190 (b)) -/

/-- Settles O48: the product with the rows is linear, and the XOR of two vectors is as long as each of them. -/
theorem transformIsLinear : Obligations.TransformIsLinear := by
  intro a b rows h
  have hlen : (xorBits a b).length = a.length := by rw [xorBits_length, ← h, Nat.min_self]
  rw [transformBits, hlen, gf2Vecmat_xorBits a.length h rows, transformBits, transformBits, ← h]

/-! ### The identity matrix and unit vectors (R190 (c), (d)) -/

theorem xorRange_eq_false {n : Nat} {f : Nat → Bit} (h : ∀ i, i < n → f i = false) : xorRange n f = false := by
  induction n with
  | zero => rfl
  | succ n ih => rw [xorRange, ih fun i hi => h i (by omega), h n n.lt_succ_self, Bool.xor_false]

/-- An indexed XOR with one index alone that contributes is the term at that index. -/
theorem xorRange_eq_term {n i : Nat} {f : Nat → Bit} (hi : i < n) (h : ∀ k, k < n → k ≠ i → f k = false) :
    xorRange n f = f i := by
  induction n with
  | zero => exact absurd hi i.not_lt_zero
  | succ n ih =>
    rw [xorRange]
    obtain rfl | hne := eq_or_ne i n
    · rw [xorRange_eq_false fun k hk => h k (by omega) hk.ne, Bool.false_xor]
    · rw [ih (by omega) fun k hk => h k (by omega), h n n.lt_succ_self hne.symm, Bool.xor_false]

/-- Column `j` of the identity matrix selects bit `j` of the vector. -/
theorem transformBits_identity (f : List Bit) :
    transformBits f ((List.range f.length).map fun i => (List.range f.length).map fun j => decide (i = j)) = f := by
  refine eq_of_getD_eq (transformBits_length _ _) fun j hj => ?_
  have hother (k : Nat) (_ : k < f.length) (hk : k ≠ j) : (f.getD k false && decide (k = j)) = false := by
    rw [decide_eq_false hk, Bool.and_false]
  rw [List.getD_eq_getElem?_getD, transformBits_map_range_getElem? _ rfl hj, Option.getD_some,
    xorRange_eq_term hj hother, decide_eq_true rfl, Bool.and_true]

/-- The vector of length `n` with its 1 at index `i`, bit by bit. -/
theorem unitVector_getD {n k : Nat} (i : Nat) (hk : k < n) :
    ((List.range n).map fun k => decide (k = i)).getD k false = decide (k = i) := by
  simp [hk]

/-- The unit vector with its 1 at `i` selects row `i` of a square matrix. -/
theorem transformBits_unitVector {rows : List (List Bit)} {i : Nat} (hi : i < rows.length)
    (hrow : rows[i].length = rows.length) :
    transformBits ((List.range rows.length).map fun k => decide (k = i)) rows = rows[i] := by
  have hlen : ((List.range rows.length).map fun k => decide (k = i)).length = rows.length := by simp
  refine eq_of_getD_eq (by rw [transformBits_length, hlen, hrow]) fun j hj => ?_
  rw [List.getD_eq_getElem?_getD, transformBits_getElem? hlen (by rwa [hlen, ← hrow]), Option.getD_some, hlen,
    xorRange_eq_term hi fun k hk hne => by rw [unitVector_getD i hk, decide_eq_false hne, Bool.false_and],
    unitVector_getD i hi, decide_eq_true rfl, Bool.true_and, List.getD_eq_getElem _ _ hi]

/-- Settles O49: one index contributes to each bit, the bit's own with the identity matrix, the 1's with a unit
vector. -/
theorem transformIdentityAndUnitVectors : Obligations.TransformIdentityAndUnitVectors :=
  ⟨transformBits_identity, fun _ _ hi hsquare => transformBits_unitVector hi (hsquare _ (List.getElem_mem hi))⟩

end Sys2Proof.Machine
end

section
/-! PROOFS. The family of spec/46_rate_matcher.md: the checks of stage 6 (R201), the gather it writes (R202, R203) and
the laws of rate matching (R205). -/

namespace Sys2Proof.Machine

/-! ### The checks of stage 6 (R201) -/

/-- The length check of R201 is the first thing stage 6 does. -/
theorem stage6_eq_raise_shape {s : State} (h : s.len.rmpat ≠ s.cfg.e) : stage6 s = .error (.raise .shape) :=
  require_bind_eq_raise fun hlen => absurd (beq_iff_eq.mp hlen) h

/-- Past the length check the pattern is read, and an entry out of range fails the range check. -/
theorem stage6_eq_raise_index {s : State} {pat : Nat → Nat} (hlen : s.len.rmpat = s.cfg.e)
    (hread : ∀ i, i < s.cfg.e → (s.mem.entries .rmpat).read i = some (pat i))
    (hbad : ∃ i, i < s.cfg.e ∧ s.cfg.n ≤ pat i) : stage6 s = .error (.raise .index) := by
  obtain ⟨i, hi, hout⟩ := hbad
  rw [stage6, require_bind, if_pos (beq_iff_eq.mpr hlen), readEntries_of_reads hlen.ge hread, ok_bind]
  exact require_bind_eq_raise fun hrange => absurd (lt_of_inRange_map_range hrange hi) hout.not_gt

/-- Settles O26: stage 6 raises ShapeError, else IndexError, and the abort step records it. -/
theorem rateMatchRaisesShapeThenIndexError : Obligations.RateMatchRaisesShapeThenIndexError := by
  intro s
  refine ⟨fun hlen => ?_, fun pat hlen hread hbad => ?_⟩
  · rw [exec_rateMatch, stage6_eq_raise_shape hlen]
    rfl
  · rw [exec_rateMatch, stage6_eq_raise_index hlen hread hbad]
    rfl

/-! ### The gather of stage 6 (R202, R203) -/

/-- One bit of a gather by a pattern given by its entries. -/
theorem gather_map_range_getElem? (bits : List Bit) {n i : Nat} (pat : Nat → Nat) (hi : i < n) :
    (gather bits ((List.range n).map pat))[i]? = some (bits.getD (pat i) false) := by
  have hentry : ((List.range n).map pat).getD i 0 = pat i := by simp [hi]
  rw [gather_getElem? _ _ _ (by simpa using hi), hentry]

/-- When stage 6 delivers a value, `rate_match` writes it to RMO, sets V_RMO and moves STG to 7 (R113, R203). -/
theorem exec_rateMatch_of_ok {s : State} {v : List Bit} (h : stage6 s = .ok v) :
    exec .rateMatch s =
      .next { s with res := { s.res with rmo := v }, valid := s.valid ||| 0b0100000#7, stg := 7 } := by
  rw [exec_rateMatch, h]
  rfl

/-- Settles O19: the checks pass, ENC is read, and the value written is its gather, bit by bit. -/
theorem rateMatchGathersByIndex : Obligations.RateMatchGathersByIndex := by
  intro s pat hlen hread hrange hv henc
  have hstage : stage6 s = .ok (gather s.res.enc ((List.range s.cfg.e).map pat)) := by
    rw [stage6_of_checks hlen hread hrange, readResult_valid (r := .enc) hv henc, ok_bind, pure_ok]
    rfl
  exact ⟨_, exec_rateMatch_of_ok hstage, by simp, fun i hi => gather_map_range_getElem? s.res.enc pat hi⟩

/-! ### The laws of rate matching (R205) -/

/-- One bit of an XOR, the default reading of `xorBits_getElem?`. -/
theorem xorBits_getD {a b : List Bit} {i : Nat} (ha : i < a.length) (hb : i < b.length) :
    (xorBits a b).getD i false = Bool.xor (a.getD i false) (b.getD i false) := by
  rw [List.getD_eq_getElem?_getD, xorBits_getElem? a b i ha hb, Option.getD_some]

/-- A gather commutes with XOR: both sides hold the XOR of the two bits at each entry of the pattern. -/
theorem gather_xorBits {a b : List Bit} {p : List Index} (hab : a.length = b.length) (hp : ∀ v ∈ p, v < a.length) :
    gather (xorBits a b) p = xorBits (gather a p) (gather b p) :=
  calc gather (xorBits a b) p
      = p.map fun v => Bool.xor (a.getD v false) (b.getD v false) :=
        List.map_congr_left fun v hv => xorBits_getD (hp v hv) (hab ▸ hp v hv)
    _ = xorBits (gather a p) (gather b p) := by rw [xorBits, gather, gather, List.zipWith_map, List.zipWith_self]

/-- Settles O57: the indices in order gather every bit to its own place, and a gather commutes with XOR. -/
theorem rateMatchIdentityAndXor : Obligations.RateMatchIdentityAndXor :=
  ⟨gather_range_length, fun _ _ _ hab hp => gather_xorBits hab hp⟩

end Sys2Proof.Machine
end

section
/-! PROOFS. The family of spec/47_validator.md: the check of stage 7 (R211), the count it writes and the end of the run
(R212, R213, R114), and the count as a distance (R214). -/

namespace Sys2Proof.Machine

/-! ### The step of stage 7 (R211, R212, R213) -/

/-- The check of R211 is the first thing stage 7 does. -/
theorem stage7_eq_raise {s : State} (h : s.len.ref ≠ s.cfg.e) : stage7 s = .error (.raise .shape) :=
  require_bind_eq_raise fun hlen => absurd (beq_iff_eq.mp hlen) h

/-- Settles O27: stage 7 raises ShapeError, and the abort step records it. -/
theorem compareRaisesShapeError : Obligations.CompareRaisesShapeError := by
  intro s h
  rw [exec_compare, stage7_eq_raise h]
  rfl

/-- The count against a reference given by its elements (R212). -/
theorem mismatchCount_map_range {candidate : List Bit} {n : Nat} (ref : Nat → Bit) (h : candidate.length = n) :
    mismatchCount candidate ((List.range n).map ref) = countRange n fun i => candidate.getD i false != ref i := by
  have hlen : candidate.length = ((List.range n).map ref).length := by simpa using h
  rw [mismatchCount_eq_countRange hlen, h]
  exact countRange_congr fun i hi => by simp [hi]

/-- When stage 7 delivers a count, `compare` writes it to MMC, sets V_MMC and completes the run (R114, R213). -/
theorem exec_compare_of_ok {s : State} {n : Nat} (h : stage7 s = .ok n) :
    exec .compare s =
      .next { s with
        res := { s.res with mmc := n }, valid := s.valid ||| 0b1000000#7, stg := 0, state := .done } := by
  rw [exec_compare, h]
  rfl

/-- Settles O20: the check passes, both reads deliver, and the count written is the contract's, by index. -/
theorem compareCountsMismatchesAndCompletes : Obligations.CompareCountsMismatchesAndCompletes := by
  intro s ref hlen hv hrmo hread
  refine exec_compare_of_ok ?_
  rw [stage7_of_checks hlen, readResult_valid (r := .rmo) hv hrmo, ok_bind,
    readBits_of_reads (sp := .ref) hlen.ge hread, ok_bind, pure_ok]
  exact congrArg Except.ok (mismatchCount_map_range ref hrmo)

/-! ### Counting by index (R13) -/

theorem countRange_eq_zero_iff {n : Nat} {p : Nat → Bool} : countRange n p = 0 ↔ ∀ i, i < n → p i = false := by
  induction n with
  | zero => exact ⟨fun _ _ hi => absurd hi (Nat.not_lt_zero _), fun _ => rfl⟩
  | succ n ih =>
    rw [countRange, Nat.add_eq_zero_iff, ih, Nat.forall_lt_succ_right]
    simp

/-- What is counted once at least one of two counts sees it is no more than both counts together. -/
theorem countRange_le_add {n : Nat} {p q r : Nat → Bool} (h : ∀ i, p i = true → q i = true ∨ r i = true) :
    countRange n p ≤ countRange n q + countRange n r := by
  induction n with
  | zero => exact Nat.le_refl 0
  | succ n ih =>
    have hlast : (if p n then 1 else 0) ≤ (if q n then 1 else 0) + (if r n then 1 else 0) := by
      by_cases hp : p n = true
      · rcases h n hp with hq | hr
        · simp [hp, hq]
        · simp [hp, hr]
      · simp [hp]
    simp only [countRange]
    omega

/-! ### The count as a distance (R214) -/

theorem xorBits_comm (a b : List Bit) : xorBits a b = xorBits b a :=
  List.zipWith_comm_of_comm Bool.xor_comm

theorem mismatchCount_comm (a b : List Bit) : mismatchCount a b = mismatchCount b a := by
  rw [mismatchCount, xorBits_comm, mismatchCount]

theorem mismatchCount_eq_zero_iff {a b : List Bit} (h : a.length = b.length) : mismatchCount a b = 0 ↔ a = b := by
  rw [mismatchCount_eq_countRange h, countRange_eq_zero_iff]
  constructor
  · intro hsame
    exact eq_of_getD_eq h fun i hi => by simpa using hsame i (h ▸ hi)
  · rintro rfl i -
    simp

/-- Where `a` and `c` differ, `b` differs from one of them. -/
theorem mismatchCount_triangle {a b c : List Bit} (hab : a.length = b.length) (hbc : b.length = c.length) :
    mismatchCount a c ≤ mismatchCount a b + mismatchCount b c := by
  rw [mismatchCount_eq_countRange (hab.trans hbc), mismatchCount_eq_countRange hab, mismatchCount_eq_countRange hbc,
    ← hab]
  refine countRange_le_add fun i hac => ?_
  rcases eq_or_ne (a.getD i false) (b.getD i false) with heq | hne
  · exact .inr (heq ▸ hac)
  · exact .inl (bne_iff_ne.mpr hne)

/-- The XOR of two vectors has its ones where they differ. -/
theorem mismatchCount_eq_xorBits_zeros {a b : List Bit} (h : a.length = b.length) :
    mismatchCount a b = mismatchCount (xorBits a b) (zeros a.length) := by
  have hlen : (xorBits a b).length = a.length := by rw [xorBits_length, ← h, Nat.min_self]
  have hzeros := xorBits_zeros (xorBits a b)
  rw [hlen] at hzeros
  rw [mismatchCount, mismatchCount, hzeros]

/-- A vector differs from its complement everywhere. -/
theorem mismatchCount_complement (a : List Bit) : mismatchCount a (a.map not) = a.length := by
  have hones : xorBits a (a.map not) = List.replicate a.length true := by
    rw [xorBits, List.zipWith_map_right, List.zipWith_self]
    simp
  rw [mismatchCount, hones, List.count_replicate_self]

/-- Settles O58, law by law. -/
theorem mismatchCountIsADistance : Obligations.MismatchCountIsADistance :=
  ⟨mismatchCount_comm, fun _ _ => mismatchCount_eq_zero_iff, fun _ _ _ => mismatchCount_triangle,
    fun _ _ => mismatchCount_eq_xorBits_zeros, mismatchCount_complement⟩

end Sys2Proof.Machine
end

section
/-! PROOFS. The family of spec/60_exceptions.md, faults: no step from a state with the invariant stops the model, and a
run left alone or polled always has a next step (R248, R113, R121). -/

namespace Sys2Proof.Machine

/-! ### The sequencer in a state with the invariant -/

/-- A BUSY sequencer runs the stage STG names, which completes or aborts (R113, R248). -/
theorem sequencerStep_is_next {s : State} (hI : s.Inv) (hb : s.state = .busy) : ∃ t, sequencerStep s = .next t := by
  obtain ⟨hstg, -⟩ := Inv_busy hI hb
  obtain ⟨i, hi⟩ := exists_number_eq hstg
  rw [sequencerStep_eq_exec hb hi]
  exact exec_is_next hI hb hi

/-- The sequencer has a next state while BUSY and is refused a step otherwise: it never faults. -/
theorem sequencerStep_ne_fault {s : State} (hI : s.Inv) (f : Fault) : sequencerStep s ≠ .fault f := by
  by_cases hb : s.state = .busy
  · obtain ⟨t, ht⟩ := sequencerStep_is_next hI hb
    rw [ht]
    exact nofun
  · rw [sequencerStep_of_not_busy hb]
    exact nofun

/-! ### The host's actions -/

/-- A host write of operand storage is taken or refused (R32, R273). -/
theorem writeOperand_ne_fault (m : Memory) (s : State) (f : Fault) : writeOperand m s ≠ .fault f := by
  rw [writeOperand]
  split <;> exact nofun

/-- A write to CTRL is taken, ignored or refused (R31, R112, R274). -/
theorem writeCtrl_ne_fault (v : Nat) (s : State) (f : Fault) : writeCtrl v s ≠ .fault f := by
  rw [writeCtrl]
  split_ifs <;> exact nofun

/-- A host write to a register is taken, ignored or refused (R32, R34, R273). -/
theorem writeCsr_ne_fault (n v : Nat) (s : State) (f : Fault) : writeCsr n v s ≠ .fault f := by
  rw [writeCsr]
  split
  · split <;> exact nofun
  · split
    · exact writeCtrl_ne_fault v s f
    · exact nofun

/-- Of the host's actions only a wait lets a stage run, and that stage does not stop. -/
theorem hostStep_ne_fault {s : State} (hI : s.Inv) (a : HostAction) (f : Fault) : hostStep a s ≠ .fault f := by
  cases a with
  | writeCsr n v => exact writeCsr_ne_fault n v s f
  | writeBit | writeEntry | writeMatrix => exact writeOperand_ne_fault _ s f
  | writeResult | reset => exact nofun
  | wait =>
    rw [hostStep]
    split
    · exact sequencerStep_ne_fault hI f
    · exact nofun

/-- Neither agent stops the model. -/
theorem step_ne_fault {s : State} (hI : s.Inv) (f : Fault) : step s ≠ .fault f := by
  cases hh : s.host with
  | nil => rw [step_of_no_action hh]; exact sequencerStep_ne_fault hI f
  | cons a rest =>
    rw [step, stepAgents, hh]
    exact hostStep_ne_fault (Inv_host hI rest) a f

/-- Settles O35: neither agent stops, and a host that does nothing or waits leaves the step to the sequencer. -/
theorem aRunNeverStops : Obligations.ARunNeverStops := by
  refine fun s hI => ⟨step_ne_fault hI, fun hb hhost => ?_⟩
  rcases hhost with hh | ⟨rest, hh⟩
  · rw [step_of_no_action hh]
    exact sequencerStep_is_next hI hb
  · rw [step_of_wait hb hh]
    exact sequencerStep_is_next (Inv_host hI rest) hb

end Sys2Proof.Machine
end

section
/-! PROOFS. The family of spec/60_exceptions.md, errors: which operands an error depends on (R235, R237) and where an
IndexError comes from (R230, R233). Both look at the run function as its stages in order: an error of the run is an
error of one of them (`stagesOn_error`). -/

namespace Sys2Proof.Machine

/-! ### An error of the run is an error of one stage -/

/-- The run function fails exactly as its stages do. -/
theorem pipelineRun_eq_error {x : RunInput} {p : StageError × Fin 8} :
    pipelineRun x = .error p ↔ stagesOn x allStages Results.noValue = .error p := by
  rw [pipelineRun_eq_stages]
  cases stagesOn x allStages Results.noValue with
  | ok r => exact ⟨nofun, nofun⟩
  | error q => rw [error_bind, Except.error.injEq, Except.error.injEq]

theorem stagesOn_cons_ok {x : RunInput} {i : Instr} {r r' : Results} (is : List Instr) (h : stageOn x r i = .ok r') :
    stagesOn x (i :: is) r = stagesOn x is r' := by
  rw [stagesOn, List.foldlM_cons, h]
  rfl

theorem stagesOn_cons_error {x : RunInput} {i : Instr} {r : Results} {p : StageError × Fin 8} (is : List Instr)
    (h : stageOn x r i = .error p) : stagesOn x (i :: is) r = .error p := by
  rw [stagesOn, List.foldlM_cons, h]
  rfl

/-- Some stage raised the error, on the results of the stages before it (R236). -/
theorem stagesOn_error {x : RunInput} {is : List Instr} {r : Results} {p : StageError × Fin 8}
    (h : stagesOn x is r = .error p) : ∃ i ∈ is, ∃ r', stageOn x r' i = .error p := by
  induction is generalizing r with
  | nil => cases h
  | cons i is ih =>
    cases hi : stageOn x r i with
    | error q =>
      rw [stagesOn_cons_error is hi] at h
      exact ⟨i, List.mem_cons_self, r, hi.trans h⟩
    | ok r' =>
      rw [stagesOn_cons_ok is hi] at h
      obtain ⟨j, hj, hr⟩ := ih h
      exact ⟨j, List.mem_cons_of_mem i hj, hr⟩

/-! ### The operands an error depends on (R235, R237) -/

/-- Inputs that agree up to a stage agree up to every earlier one. -/
theorem agreeUpTo_mono {j k : Fin 8} {x y : RunInput} (hjk : j ≤ k) (h : agreeUpTo k x y) : agreeUpTo j x y := by
  obtain ⟨hcfg, hinfo, hcrcgen, hrnti, hcil, hib, henc, hrm, href⟩ := h
  have hval : j.val ≤ k.val := hjk
  exact ⟨hcfg, hinfo, hcrcgen, fun h => hrnti (h.trans hval), fun h => hcil (h.trans hval),
    fun h => hib (h.trans hval), fun h => henc (h.trans hval), fun h => hrm (h.trans hval),
    fun h => href (h.trans hval)⟩

/-- A stage looks at the configuration, at the operands of the stages up to itself and at the results before it (R111,
D12). -/
theorem stageOn_congr {x y : RunInput} {i : Instr} (h : agreeUpTo i.number x y) (r : Results) :
    stageOn x r i = stageOn y r i := by
  obtain ⟨hcfg, hinfo, hcrcgen, hrnti, hcil, hib, henc, hrm, href⟩ := h
  cases i with
  | computeCrc => simp only [stageOn, hcfg, hinfo, hcrcgen]
  | scramble => simp only [stageOn, hcfg, hrnti (by decide)]
  | interleave => simp only [stageOn, hcfg, hinfo, hcil (by decide)]
  | mapFrozen => simp only [stageOn, hcfg, hib (by decide)]
  | transform => simp only [stageOn, hcfg, henc (by decide)]
  | rateMatch => simp only [stageOn, hcfg, hrm (by decide)]
  | compare => simp only [stageOn, hcfg, href (by decide)]

/-- Stages in the order of their numbers: up to the one that fails, both inputs give every stage the same operands. -/
theorem stagesOn_error_congr {x y : RunInput} {e : StageError} {k : Fin 8} (hxy : agreeUpTo k x y) {is : List Instr}
    (hsorted : is.Pairwise fun i j => i.number < j.number) {r : Results} (h : stagesOn x is r = .error (e, k)) :
    stagesOn y is r = .error (e, k) := by
  induction is generalizing r with
  | nil => cases h
  | cons i is ih =>
    obtain ⟨hfirst, hrest⟩ := List.pairwise_cons.mp hsorted
    cases hi : stageOn x r i with
    | error p =>
      rw [stagesOn_cons_error is hi] at h
      obtain rfl : p = (e, k) := Except.error.inj h
      obtain rfl := stageOn_error_number hi
      exact stagesOn_cons_error is ((stageOn_congr hxy r).symm.trans hi)
    | ok r' =>
      rw [stagesOn_cons_ok is hi] at h
      obtain ⟨j, hj, _, hfail⟩ := stagesOn_error h
      obtain rfl := stageOn_error_number hfail
      have hxy_i : agreeUpTo i.number x y := agreeUpTo_mono (hfirst j hj).le hxy
      rw [stagesOn_cons_ok is ((stageOn_congr hxy_i r).symm.trans hi)]
      exact ih hrest h

/-- The seven stages stand in the order of their numbers (R110). -/
theorem allStages_sorted : allStages.Pairwise fun i j => i.number < j.number := by decide

/-- Settles O44: the stages up to the one that fails make the same of both inputs. -/
theorem anErrorDependsOnNoLaterOperand : Obligations.AnErrorDependsOnNoLaterOperand :=
  fun _ _ _ _ h hxy => pipelineRun_eq_error.mpr (stagesOn_error_congr hxy allStages_sorted (pipelineRun_eq_error.mp h))

/-! ### Where an IndexError comes from (R230, R233) -/

/-- A check before what fails: either the check raised the error, or it passed and the rest did. -/
theorem requireAt_bind_eq_error {α : Type} {k : Fin 8} {c : Bool} {e : StageError} {p : StageError × Fin 8}
    {f : Unit → Except (StageError × Fin 8) α} (h : (requireAt k c e >>= f) = .error p) :
    (c = false ∧ p = (e, k)) ∨ (c = true ∧ f () = .error p) := by
  cases c
  · exact .inl ⟨rfl, (Except.error.inj h).symm⟩
  · exact .inr ⟨rfl, h⟩

/-- An IndexError after a shape check was raised by the rest, and the check has passed. -/
theorem index_error_after_shape {α : Type} {k k' : Fin 8} {c : Bool} {f : Unit → Except (StageError × Fin 8) α}
    (h : (requireAt k c .shape >>= f) = .error (.index, k')) : c = true ∧ f () = .error (.index, k') := by
  rcases requireAt_bind_eq_error h with ⟨-, hp⟩ | hrest
  · cases hp
  · exact hrest

/-- A shape check adds no IndexError to what follows it. -/
theorem shape_check_ne_index {α : Type} {k k' : Fin 8} {c : Bool} {f : Unit → Except (StageError × Fin 8) α}
    (hf : f () ≠ .error (.index, k')) : (requireAt k c .shape >>= f) ≠ .error (.index, k') := by
  intro h
  obtain ⟨-, hrest⟩ := index_error_after_shape h
  exact hf hrest

/-- An entry fails the range check of R162 and R201. -/
theorem exists_le_of_inRange_eq_false {pattern : List Index} {bound : Nat} (h : inRange pattern bound = false) :
    ∃ v ∈ pattern, bound ≤ v := by
  simpa [inRange] using h

/-- An IndexError of stage 3: the length of CILPAT is right, an entry is out of range or repeated (R161, R162). -/
theorem stageOn_interleave_index {x : RunInput} {r : Results} {k : Fin 8}
    (h : stageOn x r .interleave = .error (.index, k)) :
    x.cilpat.length = x.cfg.a + x.cfg.p ∧ ((∃ v ∈ x.cilpat, x.cfg.a + x.cfg.p ≤ v) ∨ ¬ x.cilpat.Nodup) := by
  obtain ⟨hlen, h⟩ := index_error_after_shape h
  refine ⟨beq_iff_eq.mp hlen, ?_⟩
  rcases requireAt_bind_eq_error h with ⟨hrange, -⟩ | ⟨-, h⟩
  · exact .inl (exists_le_of_inRange_eq_false hrange)
  · rcases requireAt_bind_eq_error h with ⟨hdup, -⟩ | ⟨-, h⟩
    · exact .inr (of_decide_eq_false hdup)
    · cases h

/-- An IndexError of stage 6: the length of RMPAT is right, an entry is out of range (R201). -/
theorem stageOn_rateMatch_index {x : RunInput} {r : Results} {k : Fin 8}
    (h : stageOn x r .rateMatch = .error (.index, k)) :
    x.rmpat.length = x.cfg.e ∧ ∃ v ∈ x.rmpat, x.cfg.n ≤ v := by
  obtain ⟨hlen, h⟩ := index_error_after_shape h
  refine ⟨beq_iff_eq.mp hlen, ?_⟩
  rcases requireAt_bind_eq_error h with ⟨hrange, -⟩ | ⟨-, h⟩
  · exact exists_le_of_inRange_eq_false hrange
  · cases h

/-- The stages that check shapes only raise no IndexError (R233). -/
theorem stageOn_ne_index {x : RunInput} {r : Results} {i : Instr} {k : Fin 8} (h3 : i ≠ .interleave)
    (h6 : i ≠ .rateMatch) : stageOn x r i ≠ .error (.index, k) := by
  cases i with
  | interleave => exact absurd rfl h3
  | rateMatch => exact absurd rfl h6
  | computeCrc =>
    exact shape_check_ne_index <| shape_check_ne_index <| shape_check_ne_index <| shape_check_ne_index nofun
  | scramble | compare => exact shape_check_ne_index nofun
  | mapFrozen | transform => exact shape_check_ne_index <| shape_check_ne_index nofun

/-- Settles O45: the stage that raised the error is stage 3 or stage 6, since the others check shapes only. -/
theorem indexErrorOnlyFromPatterns : Obligations.IndexErrorOnlyFromPatterns := by
  intro x k h
  obtain ⟨i, -, r, hi⟩ := stagesOn_error (pipelineRun_eq_error.mp h)
  have hk : k = i.number := stageOn_error_number hi
  by_cases h3 : i = .interleave
  · subst h3
    exact .inl ⟨hk, stageOn_interleave_index hi⟩
  · by_cases h6 : i = .rateMatch
    · subst h6
      exact .inr ⟨hk, stageOn_rateMatch_index hi⟩
    · exact absurd hi (stageOn_ne_index h3 h6)

end Sys2Proof.Machine
end

section
/-! PROOFS. The family of spec/70_reset_and_hazards.md: reset from any state (R270, R35) and the host writes a BUSY core
refuses (R273, R274, U5, U6). -/

namespace Sys2Proof.Machine

/-! ### Reset -/

/-- Settles O2: `applyReset` has the registers, flags and storage of the state after reset, whatever it was applied
to. -/
theorem resetFromAnyStateGivesResetState : Obligations.ResetFromAnyStateGivesResetState := by
  intro s
  obtain ⟨hbits, hentries, hmatrix⟩ := reset_holds_no_element
  have hw (n : Nat) : csrHolds (applyReset s).written n = false := BitVec.getLsbD_zero
  exact ⟨applyReset s, rfl, rfl, rfl, rfl, rfl, rfl, rfl, fun n hn => hostReadCsr_not_written hn (hw n),
    hbits, hentries, hmatrix, fun sp i => hostReadBit_eq_none (.inl (hw _)),
    fun sp i => hostReadEntry_eq_none (.inl (hw _)), fun sp i j => hostReadMatrix_eq_none (.inl (hw _)),
    fun r i => hostReadResult_none i (.inr (hasFlag_zero _)), hostReadCsr_mmc_none (.inr (hasFlag_zero _))⟩

/-! ### Writes to a BUSY core -/

section Busy
variable {s : State} (hb : s.state = .busy)
include hb

theorem writeCsr_of_busy {n : Nat} (hn : n < 15) (v : Nat) : writeCsr n v s = .refused .writeWhileBusy := by
  rw [writeCsr, if_pos hn, if_pos hb]

theorem writeOperand_of_busy (m : Memory) : writeOperand m s = .refused .writeWhileBusy := if_pos hb

theorem writeCtrl_of_busy {v : Nat} (hv : v % 2 = 1) : writeCtrl v s = .refused .startWhileBusy := by
  rw [writeCtrl, if_pos hv, if_pos hb]

end Busy

/-- Settles O10: the three kinds of write, each refused by its own guard. -/
theorem hostWritesWhileBusyAreRefused : Obligations.HostWritesWhileBusyAreRefused :=
  fun _ hb => ⟨fun _ v hn => writeCsr_of_busy hb hn v, fun _ _ _ => writeOperand_of_busy hb _,
    fun _ _ _ => writeOperand_of_busy hb _, fun _ _ _ _ => writeOperand_of_busy hb _,
    fun _ hv => writeCtrl_of_busy hb hv⟩

end Sys2Proof.Machine
end
